-- ==== Sys2Proof/Word.lean ====
section
/-! DEFINITION. The word types of the NCHF hash core (00_scope.md section 5): 32-bit register words, bytes, keys. -/

namespace Sys2Proof

/-- A 32-bit register or port word: every named register is 32 bits wide unless 10_state.md says otherwise. -/
abbrev Word := BitVec 32

/-- A key byte, 0 to 255. -/
abbrev Byte := BitVec 8

/-- A key: a finite sequence of bytes. Two keys are equal when they have the same length and the same byte at every
position (00_scope.md section 5, R177), which is equality of lists. -/
abbrev Key := List Byte

end Sys2Proof
end

