-- ==== Sys2Proof/Config.lean ====
section
/-! DEFINITION. The capacity parameters of 00_scope.md R6, which a model takes as arguments (P1 to P3 of
93_implementation_defined.md). Their constraints are checked in WellFormed.lean. -/

namespace Sys2Proof

/-- The three capacity parameters of R6. They are arguments of the model, not values this file fixes: a state carries
them in its field `cfg`, and no step changes them (log 3). -/
structure Config where
  /-- `KEY_MAX`: capacity of the key buffer in bytes. -/
  keyMax : Nat
  /-- `MAX_BUCKETS`: largest bucket count `TBL_INIT` accepts. -/
  maxBuckets : Nat
  /-- `MAX_ENTRIES`: largest number of entries the chain store holds at once. -/
  maxEntries : Nat
deriving DecidableEq, Repr

/-- The reference configuration of R6, which the spec's own vectors use. DESIGN CHOICE (log 3): it is the
configuration of `State.reset`. -/
def Config.reference : Config := { keyMax := 64, maxBuckets := 65536, maxEntries := 65536 }

end Sys2Proof
end

