-- ==== Sys2Proof/Syntax.lean ====
section
/-! DEFINITION. The 22 commands of 30_encoding.md R84, the registers of the port (10_state.md R45), the port
transactions of 20_memory.md R66 with the reset event of 70_reset_and_hazards.md R240, and the pseudo-instructions of
R89. -/

namespace Sys2Proof

/-- The two hash cores a table can use (R26 `HSEL`, R82 `sel`): 0 the FNV1a Hasher, 1 the Murmur Hasher. -/
inductive Hasher where
  /-- `sel = 0`, the FNV1a Hasher. -/
  | fnv
  /-- `sel = 1`, the Murmur Hasher. -/
  | mur
deriving DecidableEq, Repr

/-- The 22 commands of R84, one constructor per row of the opcode table. Format B carries its byte, format S its
hasher; the ARG operand of format A is read from the state (R83). -/
inductive Instr where
  | nop
  | clrErr
  | keyClr
  | keyPush (imm8 : Byte)
  | keyPushw
  | fnvInit
  | fnvByte (imm8 : Byte)
  | fnvFinal
  | fnvKey
  | murInit
  | murByte (imm8 : Byte)
  | murBlock
  | murFinal
  | murKey
  | tblInit (sel : Hasher)
  | tblDiscard
  | tblAdd
  | tblContains
  | tblRemove
  | tblDist
  | tblColl
  | tblSize
deriving DecidableEq, Repr

/-- The named registers of the port, in the order of the register map R45. -/
inductive Reg where
  | cmd
  | arg
  | status
  | result
  | digest
  | idx
  | fnvAcc
  | murH
  | murTail
  | murLen
  | keylen
  | buckets
  | size
  | id
  | capKey
  | capBuckets
  | capEntries
deriving DecidableEq, Repr

/-- What can happen at the block's boundary: the two port transactions of R66 and the reset event of R240. `off` is a
byte offset on the port. -/
inductive Txn where
  /-- `HostWrite(off, v)`. -/
  | write (off : Nat) (v : Word)
  /-- `HostRead(off)`. -/
  | read (off : Nat)
  /-- The reset event, which happens between two port transactions (R241). -/
  | reset
deriving DecidableEq, Repr

/-- The pseudo-instructions of R89. -/
inductive Pseudo where
  /-- `KEY b1 b2 ... bn`. -/
  | key (bs : Key)
  /-- `KEY "s"`, the characters of `s`. -/
  | keyText (cs : List Char)
  /-- `FNV1A "s"`. -/
  | fnv1a (cs : List Char)
  /-- `MURMUR "s"`. -/
  | murmur (cs : List Char)
  /-- `NEW FNV, n` and `NEW MUR, n`. -/
  | new (sel : Hasher) (n : Word)
  /-- `ADD "s"`. -/
  | add (cs : List Char)
  /-- `CONTAINS "s"`. -/
  | contains (cs : List Char)
  /-- `REMOVE "s"`. -/
  | remove (cs : List Char)
  /-- `DIST i`. -/
  | dist (i : Word)
  /-- `GETDIST` on a table of `n` buckets. -/
  | getdist (n : Nat)
  /-- `COLL`. -/
  | coll
  /-- `SIZE`. -/
  | size
deriving DecidableEq, Repr

end Sys2Proof
end

