-- ==== Sys2Proof/WellFormed.lean ====
section
/-! DEFINITION. Which syntax is well formed: commands (their operand types already hold every bound of R81 and R82),
port transactions (20_memory.md R66) and configurations (00_scope.md R6). -/

namespace Sys2Proof

/-- A command is well formed when its operands fit their fields (R81, R82). `imm8` is a byte and `sel` one of two
hashers BY TYPE, so no command is ill formed: the 788 legal words of R85 are exactly the 788 commands. -/
def Instr.wf : Instr → Bool
  | .keyPush imm8 | .fnvByte imm8 | .murByte imm8 => imm8.toNat < 256
  | .tblInit sel => sel = .fnv || sel = .mur
  | .nop | .clrErr | .keyClr | .keyPushw | .fnvInit | .fnvFinal | .fnvKey | .murInit | .murBlock | .murFinal
  | .murKey | .tblDiscard | .tblAdd | .tblContains | .tblRemove | .tblDist | .tblColl | .tblSize => true

/-- The 64 word offsets of the port (R66): a multiple of 4 in [0x00, 0xFC]. -/
def portOffset (off : Nat) : Bool := off % 4 = 0 && off ≤ 0xFC

/-- A transaction the port has (R66, U11). -/
def Txn.wf : Txn → Bool
  | .write off _ => portOffset off
  | .read off => portOffset off
  | .reset => true

/-- The constraints of R6 on the three capacity parameters. -/
def Config.wf (c : Config) : Bool :=
  1 ≤ c.keyMax && c.keyMax ≤ 2 ^ 31 - 1 &&
  1 ≤ c.maxBuckets && c.maxBuckets ≤ 2 ^ 31 - 1 &&
  1 ≤ c.maxEntries && c.maxEntries ≤ 2 ^ 32 - 1

end Sys2Proof
end

