-- ==== Sys2Proof/Decode.lean ====
section
/-! DEFINITION. Command words: the fields of R81, the decoder of R87, the encoder of R88, the opcode table of R84, and the
byte layout of a word (R62). The encoding is the spec's own (D4). -/

namespace Sys2Proof

/-- Why a word is illegal (R85); every reason is the ILLEGAL of R87. -/
inductive DecodeError where
  /-- `w[7:0]` is none of the 22 opcodes. Safe: the spec itself rejects the word. -/
  | unassignedOpcode (op : Byte)
  /-- A bit that the format of the opcode requires to be zero is set. Safe: the spec itself rejects the word. -/
  | reservedBitsSet (op : Byte)
deriving DecidableEq, Repr

/-! ### Fields of a command word (R81, R82) -/

/-- `w[7:0]`. -/
def opcodeField (w : Word) : Byte := w.extractLsb' 0 8

/-- `w[15:8]`. -/
def imm8Field (w : Word) : Byte := w.extractLsb' 8 8

/-- `w[8]`, as the hasher it selects (R82). -/
def selField (w : Word) : Hasher := if w.getLsbD 8 then .mur else .fnv

/-- `w[31:8]`, zero in formats N and A. -/
def upperNA (w : Word) : BitVec 24 := w.extractLsb' 8 24

/-- `w[31:16]`, zero in format B. -/
def upperB (w : Word) : BitVec 16 := w.extractLsb' 16 16

/-- `w[31:9]`, zero in format S. -/
def upperS (w : Word) : BitVec 23 := w.extractLsb' 9 23

/-! ### Decoding (R87) -/

/-- Format B: the three opcodes that carry a byte. -/
def decodeB (op : Byte) (w : Word) : Option Instr :=
  if op = 0x11 then some (.keyPush (imm8Field w))
  else if op = 0x21 then some (.fnvByte (imm8Field w))
  else if op = 0x31 then some (.murByte (imm8Field w))
  else none

/-- Formats N and A: the eighteen opcodes with no field. -/
def decodeNA (op : Byte) : Option Instr :=
  if op = 0x00 then some .nop
  else if op = 0x01 then some .clrErr
  else if op = 0x10 then some .keyClr
  else if op = 0x12 then some .keyPushw
  else if op = 0x20 then some .fnvInit
  else if op = 0x22 then some .fnvFinal
  else if op = 0x23 then some .fnvKey
  else if op = 0x30 then some .murInit
  else if op = 0x32 then some .murBlock
  else if op = 0x33 then some .murFinal
  else if op = 0x34 then some .murKey
  else if op = 0x41 then some .tblDiscard
  else if op = 0x42 then some .tblAdd
  else if op = 0x43 then some .tblContains
  else if op = 0x44 then some .tblRemove
  else if op = 0x45 then some .tblDist
  else if op = 0x46 then some .tblColl
  else if op = 0x47 then some .tblSize
  else none

/-- R87: a total function of the word alone, to one of the 22 commands or to the name of what makes it illegal. -/
def decode (w : Word) : Except DecodeError Instr :=
  let op := opcodeField w
  match decodeB op w with
  | some i => if upperB w ≠ 0 then .error (.reservedBitsSet op) else .ok i
  | none =>
    if op = 0x40 then
      if upperS w ≠ 0 then .error (.reservedBitsSet op) else .ok (.tblInit (selField w))
    else
      match decodeNA op with
      | some i => if upperNA w ≠ 0 then .error (.reservedBitsSet op) else .ok i
      | none => .error (.unassignedOpcode op)

/-! ### Byte layout of a word (R62 (b)) -/

/-- The four bytes of a word on a byte-addressed bus, the lowest address first: bits 7 to 0 come first (R62 (b)). -/
def bytesOfWord (w : Word) : List Byte :=
  [w.extractLsb' 0 8, w.extractLsb' 8 8, w.extractLsb' 16 8, w.extractLsb' 24 8]

/-- The word whose bytes, the lowest address first, are the four given (R62 (b)). -/
def wordOfBytes (b0 b1 b2 b3 : Byte) : Word := b3 ++ b2 ++ b1 ++ b0

/-- The decoder on the bytes of one command word, the lowest address first. Anything but four bytes is no command word
(R80: every command is one 32-bit word). -/
def decodeBytes : List Byte → Option (Except DecodeError Instr)
  | [b0, b1, b2, b3] => some (decode (wordOfBytes b0 b1 b2 b3))
  | _ => none

/-! ### Encoding (R84, R88) -/

/-- `w = opcode` for formats N and A (R88). -/
def encodeNA (op : Byte) : Word := op.setWidth 32

/-- `w = opcode + 256 * imm8` for format B (R88). -/
def encodeB (op imm8 : Byte) : Word := op.setWidth 32 + 256#32 * imm8.setWidth 32

/-- The bit that selects a hasher (R82). -/
def selBit : Hasher → Word
  | .fnv => 0#32
  | .mur => 1#32

/-- `w = opcode + 256 * sel` for format S (R88). -/
def encodeS (op : Byte) (sel : Hasher) : Word := op.setWidth 32 + 256#32 * selBit sel

/-- The word of a command (R84, R88). -/
def encode : Instr → Word
  | .nop => encodeNA 0x00
  | .clrErr => encodeNA 0x01
  | .keyClr => encodeNA 0x10
  | .keyPush imm8 => encodeB 0x11 imm8
  | .keyPushw => encodeNA 0x12
  | .fnvInit => encodeNA 0x20
  | .fnvByte imm8 => encodeB 0x21 imm8
  | .fnvFinal => encodeNA 0x22
  | .fnvKey => encodeNA 0x23
  | .murInit => encodeNA 0x30
  | .murByte imm8 => encodeB 0x31 imm8
  | .murBlock => encodeNA 0x32
  | .murFinal => encodeNA 0x33
  | .murKey => encodeNA 0x34
  | .tblInit sel => encodeS 0x40 sel
  | .tblDiscard => encodeNA 0x41
  | .tblAdd => encodeNA 0x42
  | .tblContains => encodeNA 0x43
  | .tblRemove => encodeNA 0x44
  | .tblDist => encodeNA 0x45
  | .tblColl => encodeNA 0x46
  | .tblSize => encodeNA 0x47

/-! ### The opcode table (R84) -/

/-- The mnemonic of a command in the table of R84. -/
def mnemonic : Instr → String
  | .nop => "NOP"
  | .clrErr => "CLR_ERR"
  | .keyClr => "KEY_CLR"
  | .keyPush _ => "KEY_PUSH"
  | .keyPushw => "KEY_PUSHW"
  | .fnvInit => "FNV_INIT"
  | .fnvByte _ => "FNV_BYTE"
  | .fnvFinal => "FNV_FINAL"
  | .fnvKey => "FNV_KEY"
  | .murInit => "MUR_INIT"
  | .murByte _ => "MUR_BYTE"
  | .murBlock => "MUR_BLOCK"
  | .murFinal => "MUR_FINAL"
  | .murKey => "MUR_KEY"
  | .tblInit _ => "TBL_INIT"
  | .tblDiscard => "TBL_DISCARD"
  | .tblAdd => "TBL_ADD"
  | .tblContains => "TBL_CONTAINS"
  | .tblRemove => "TBL_REMOVE"
  | .tblDist => "TBL_DIST"
  | .tblColl => "TBL_COLL"
  | .tblSize => "TBL_SIZE"

/-- One row of the table of R84: a word encodes the row's command exactly when `w AND mask = pattern`. -/
structure OpcodeRow where
  mnemonic : String
  pattern : Word
  mask : Word
deriving DecidableEq, Repr

/-- The 22 rows of R84, written out from the spec's table and not from the decoder. -/
def opcodeTable : List OpcodeRow :=
  [⟨"NOP", 0x00000000, 0xFFFFFFFF⟩, ⟨"CLR_ERR", 0x00000001, 0xFFFFFFFF⟩,
   ⟨"KEY_CLR", 0x00000010, 0xFFFFFFFF⟩, ⟨"KEY_PUSH", 0x00000011, 0xFFFF00FF⟩,
   ⟨"KEY_PUSHW", 0x00000012, 0xFFFFFFFF⟩, ⟨"FNV_INIT", 0x00000020, 0xFFFFFFFF⟩,
   ⟨"FNV_BYTE", 0x00000021, 0xFFFF00FF⟩, ⟨"FNV_FINAL", 0x00000022, 0xFFFFFFFF⟩,
   ⟨"FNV_KEY", 0x00000023, 0xFFFFFFFF⟩, ⟨"MUR_INIT", 0x00000030, 0xFFFFFFFF⟩,
   ⟨"MUR_BYTE", 0x00000031, 0xFFFF00FF⟩, ⟨"MUR_BLOCK", 0x00000032, 0xFFFFFFFF⟩,
   ⟨"MUR_FINAL", 0x00000033, 0xFFFFFFFF⟩, ⟨"MUR_KEY", 0x00000034, 0xFFFFFFFF⟩,
   ⟨"TBL_INIT", 0x00000040, 0xFFFFFEFF⟩, ⟨"TBL_DISCARD", 0x00000041, 0xFFFFFFFF⟩,
   ⟨"TBL_ADD", 0x00000042, 0xFFFFFFFF⟩, ⟨"TBL_CONTAINS", 0x00000043, 0xFFFFFFFF⟩,
   ⟨"TBL_REMOVE", 0x00000044, 0xFFFFFFFF⟩, ⟨"TBL_DIST", 0x00000045, 0xFFFFFFFF⟩,
   ⟨"TBL_COLL", 0x00000046, 0xFFFFFFFF⟩, ⟨"TBL_SIZE", 0x00000047, 0xFFFFFFFF⟩]

/-! ### The host's question: which command a table row's bits are -/

/-- The command the decoder reads from a command of at most 32 bits, numbered as the opcode table numbers them (bit 0
the least significant bit of the one word); the word's bytes are laid out in the order of R62 (b) and given to the
decoder. `none` where the decoder refuses. -/
def decodeTableWord (nbits w : Nat) : Option Instr :=
  if nbits ≤ 32 && w < 2 ^ nbits then
    match decodeBytes (bytesOfWord (BitVec.ofNat 32 w)) with
    | some (.ok i) => some i
    | _ => none
  else none

end Sys2Proof
end

