-- ==== Sys2Proof/Machine/Constants.lean ====
section
/-! DEFINITION. The constants of the hardware: the table of 00_scope.md R7 and the identification value of 10_state.md
R43. No command changes them and no configuration selects others. -/

namespace Sys2Proof.Machine

/-- `FNV_BASIS`: the FNV-1a offset basis. -/
def fnvBasis : Word := 0x811C9DC5

/-- `FNV_PRIME`: the FNV-1a multiplier. -/
def fnvPrime : Word := 0x01000193

/-- `MUR_SEED`: initial value of the Murmur hash register, decimal 256. -/
def murSeed : Word := 0x00000100

/-- `MUR_C1`: first block multiplier. -/
def murC1 : Word := 0xCC9E2D51

/-- `MUR_C2`: second block multiplier. -/
def murC2 : Word := 0x1B873593

/-- `MUR_R1`: rotate-left amount applied to the block word. -/
def murR1 : Nat := 15

/-- `MUR_R2`: rotate-left amount applied to the hash. -/
def murR2 : Nat := 13

/-- `MUR_M`: multiplier of the second stage. -/
def murM : Word := 5

/-- `MUR_N`: addend of the second stage. -/
def murN : Word := 0xE6546B64

/-- `MUR_F1`: first finalizer multiplier. -/
def murF1 : Word := 0x85EBCA6B

/-- `MUR_F2`: second finalizer multiplier. -/
def murF2 : Word := 0xC2B2AE35

/-- The `ID` register of R43: the ASCII bytes "NCHF". -/
def idValue : Word := 0x4E434846

end Sys2Proof.Machine
end

