-- ==== Sys2Proof/Machine/State.lean ====
section
/-! DEFINITION. The state of the block (10_state.md), the reasons a step can stop, and the state after reset
(70_reset_and_hazards.md R240). -/

namespace Sys2Proof.Machine

/-- The whole state. The first group is the model's own argument, the last group the model's own record of the host;
every other field is a piece of state 10_state.md names. `CMD`, `ID` and the `CAP_*` registers are not state (R42, R43,
R44), and `STATUS.MINNEG` is a function of `DIGEST` (R26). -/
structure State where
  /-- The capacity parameters of R6, which a model takes as arguments; no step changes them (log 3). -/
  cfg : Config
  /-- `ARG` (R24). -/
  arg : Word
  /-- `RESULT` (R25). -/
  result : Word
  /-- `STATUS.ERR` (R26): the completion code of the most recent command. -/
  err : BitVec 4
  /-- `STATUS.ERRS` (R26): the sticky error flag. -/
  errs : Bool
  /-- `STATUS.TVALID` (R26): a table exists. -/
  tvalid : Bool
  /-- `STATUS.HSEL` (R26, R36): the hasher of the live table. -/
  hsel : Hasher
  /-- `DIGEST` (R28). -/
  digest : Word
  /-- `IDX` (R29). -/
  idx : Word
  /-- `KEYLEN` (R30). -/
  keylen : Word
  /-- `KEYBUF` (R30, R61): (position, byte) cells, positions strictly rising. A position with no cell holds an
  unspecified byte, to which the model gives no value (log 4). -/
  keybuf : List Host.Cell
  /-- `FNV_ACC` (R31). -/
  fnvAcc : Word
  /-- `MUR_H` (R32). -/
  murH : Word
  /-- `MUR_TAIL` (R33). -/
  murTail : Word
  /-- `MUR_LEN` (R34). -/
  murLen : Word
  /-- `BUCKETS` (R36). -/
  buckets : Word
  /-- `SIZE` (R37). -/
  size : Word
  /-- `CHAIN` (R38): (bucket, chain) cells, buckets strictly rising, no empty chain listed; a bucket with no cell has
  the empty chain (R39, log 6). -/
  chains : List (Nat × List Key)
  /-- The model's own: the host's transactions not yet performed, the next one first (R21, R22; log 1). -/
  port : List Txn
  /-- The model's own: the values `HostRead` transactions have returned, oldest first (R66; log 2). -/
  returned : List Word
deriving DecidableEq, Repr

/-- Why the machine stops. Nothing in the spec stops it (R211); both faults guard accesses that R61 says cannot occur,
and no state that meets the invariant of Safety.lean reaches one. -/
inductive Fault where
  /-- Raised by a command that reads the key buffer at a position that is not below KEYLEN or whose byte is
  unspecified: outside the domain R61 gives MemRead. Safe: the model stops where the hardware cannot be. -/
  | keyRead
  /-- Raised by `KEY_PUSH` and `KEY_PUSHW` for a position at or past KEY_MAX: outside the domain R61 gives MemWrite.
  Safe: the model stops where the hardware cannot be. -/
  | keyWrite
deriving DecidableEq, Repr

/-- Why the machine gives no meaning to what it is asked. -/
inductive Refusal where
  /-- Raised by `exec` for a command with no meaning yet; no arm of this model answers it. Safe. -/
  | notModelled (mnemonic : String)
  /-- Raised by the port for a transaction at an offset that is not one of the 64 word offsets: a transaction the block
  is never given, refused at the level of the model (93_implementation_defined.md U11, R66; log 5). Safe. -/
  | portAccess (off : Nat)
deriving DecidableEq, Repr

/-- What a step, a command or a transaction answers. -/
abbrev Result := Host.Outcome State Fault Refusal

/-- The reset state of R240 for a configuration, with nothing asked of the port. -/
def State.resetWith (cfg : Config) : State :=
  { cfg := cfg
    arg := 0
    result := 0
    err := 0
    errs := false
    tvalid := false
    hsel := .fnv
    digest := 0
    idx := 0
    keylen := 0
    keybuf := []
    fnvAcc := fnvBasis
    murH := murSeed
    murTail := 0
    murLen := 0
    buckets := 0
    size := 0
    chains := []
    port := []
    returned := [] }

/-- The machine right after reset (R240), in the reference configuration of R6 (log 3). -/
def State.reset : State := State.resetWith Config.reference

end Sys2Proof.Machine
end

