-- ==== Sys2Proof/Machine/Operands.lean ====
section
/-! DEFINITION. The operand forms of 30_encoding.md R82 and R83 and the arithmetic primitives of 00_scope.md R10 and R11.
All arithmetic is on 32-bit patterns and wraps; none of it sets a flag. -/

namespace Sys2Proof.Machine

/-! ### Arithmetic primitives (R10, R11) -/

/-- `mul32(a, b) = (a * b) mod 2^32`. -/
def mul32 (a b : Word) : Word := a * b

/-- `add32(a, b) = (a + b) mod 2^32`. -/
def add32 (a b : Word) : Word := a + b

/-- `xor32(a, b)`. -/
def xor32 (a b : Word) : Word := a ^^^ b

/-- `or32(a, b)`. -/
def or32 (a b : Word) : Word := a ||| b

/-- `shl32(a, r) = (a * 2^r) mod 2^32`. -/
def shl32 (a : Word) (r : Nat) : Word := a <<< r

/-- `lsr32(a, r) = floor(a / 2^r)`: the logical right shift. -/
def lsr32 (a : Word) (r : Nat) : Word := a >>> r

/-- `rotl32(a, r) = or32(shl32(a, r), lsr32(a, 32 - r))`, used with r = 15 and r = 13 only. -/
def rotl32 (a : Word) (r : Nat) : Word := or32 (shl32 a r) (lsr32 a (32 - r))

/-- `umod(a, m) = a mod m`, unsigned, for `m` in [1, 2^32). No command applies it with `m = 0` in a state that R36
allows (log 7). -/
def umod (a m : Word) : Word := a % m

/-- `abs32(x)` (R11): the two's-complement absolute value as a 32-bit pattern; `0x80000000` maps to itself. -/
def abs32 (x : Word) : Word := if x.getLsbD 31 then 0 - x else x

/-- `zext_32(b)`: a byte as a 32-bit value with bits 31 to 8 zero (R63). -/
def zext32 (b : Byte) : Word := b.setWidth 32

/-! ### Operands (R82, R83) -/

/-- The operand of a format B command: the immediate byte, zero-extended (R82). -/
def immOperand (imm8 : Byte) : Word := zext32 imm8

/-- The operand of a format A or S command: the whole ARG register when the command arrives (R83). -/
def argOperand (s : State) : Word := s.arg

/-- Byte `j` of a word, `v[8j+7:8j]`: the order of R61 and R62. -/
def byteOf (v : Word) (j : Nat) : Byte := v.extractLsb' (8 * j) 8

/-- The little-endian word of at most four bytes: the sum of `b_j * 2^(8j)` (R61, R62). -/
def leWord : List Byte → Word
  | [] => 0
  | b :: bs => add32 (zext32 b) (shl32 (leWord bs) 8)

end Sys2Proof.Machine
end

