-- ==== Sys2Proof/Machine/Flags.lean ====
section
/-! DEFINITION. The error codes of 60_exceptions.md R210 and the STATUS register of 10_state.md R26. ERR and ERRS are the
only flags of the block (R27). -/

namespace Sys2Proof.Machine

/-- The errors a command can report (R210). -/
inductive ErrCode where
  /-- The word encodes no command. -/
  | eill
  /-- `TBL_REMOVE`: the key is not in the chain of its bucket. -/
  | enotfound
  /-- `TBL_INIT`: the bucket count is 0 or above MAX_BUCKETS. -/
  | ecfg
  /-- A table command other than `TBL_INIT` while no table exists. -/
  | enotbl
  /-- `TBL_INIT` while a table exists. -/
  | ebusy
  /-- The key buffer has no room. -/
  | ekeyovf
  /-- `TBL_ADD` with SIZE = MAX_ENTRIES. -/
  | efull
  /-- `TBL_DIST` with ARG >= BUCKETS. -/
  | erange
  /-- `MUR_BLOCK` off a block boundary. -/
  | eseq
  /-- MUR_LEN would pass 2^32 - 1. -/
  | elen
deriving DecidableEq, Repr

/-- The code of an error in `STATUS.ERR` (R210). -/
def errCode : ErrCode → BitVec 4
  | .eill => 1
  | .enotfound => 2
  | .ecfg => 3
  | .enotbl => 4
  | .ebusy => 5
  | .ekeyovf => 6
  | .efull => 7
  | .erange => 8
  | .eseq => 9
  | .elen => 10

/-- `ERR = OK` (R210): the command completed. -/
def okCode : BitVec 4 := 0

/-- `STATUS.MINNEG` (R26): 1 exactly when `DIGEST = 0x80000000`. -/
def minneg (s : State) : Bool := s.digest = 0x80000000#32

/-- The value of `STATUS.HSEL` (R26). -/
def hselBit : Hasher → Bool
  | .fnv => false
  | .mur => true

/-- The STATUS register as the host reads it (R26): ERR in bits 3:0, ERRS bit 4, TVALID bit 5, HSEL bit 6, MINNEG bit 7,
bits 31:8 zero. -/
def statusWord (s : State) : Word :=
  0#24 ++ BitVec.ofBool (minneg s) ++ BitVec.ofBool (hselBit s.hsel) ++ BitVec.ofBool s.tvalid ++
    BitVec.ofBool s.errs ++ s.err

end Sys2Proof.Machine
end

