-- ==== Sys2Proof/Machine/Ops.lean ====
section
/-! DEFINITION. The named operations over the state: completion and failure of a command (40_control_and_key.md R100,
60_exceptions.md R212), the key buffer (20_memory.md R61), the chain store (10_state.md R38, R39). -/

namespace Sys2Proof.Machine

/-! ### Completing, failing, clearing

Failing is this block's whole exception mechanism: there is no trap, no saved state and no vector (R211). The nearest
thing to a return is `CLR_ERR` (R217). -/

/-- R100: a command that reaches its end writes `ERR <- 0` and leaves `ERRS`. -/
def complete (s : State) : State := { s with err := okCode }

/-- `raise E(code)` (R212): `ERR <- code`, `ERRS <- 1`; everything written before stands. -/
def raise (c : ErrCode) (s : State) : State := { s with err := errCode c, errs := true }

/-- What `CLR_ERR` does to the sticky flag (R102, R217): nothing else is restored, because nothing was saved. -/
def clearSticky (s : State) : State := { s with errs := false }

/-- A command that ends with a state: it completes (R100). -/
def finish (s : State) : Result := .next (complete s)

/-- A command that fails: `raise`, and no later line runs (R212). -/
def fail (c : ErrCode) (s : State) : Result := .next (raise c s)

/-! ### Sparse stores in one canonical form: keys strictly rising -/

/-- The value listed at `a`. -/
def cellsGet {α : Type} : List (Nat × α) → Nat → Option α
  | [], _ => none
  | (p, x) :: rest, a => if p = a then some x else cellsGet rest a

/-- Lists `x` at `a`, in order, in place of what was listed there. -/
def cellsPut {α : Type} : List (Nat × α) → Nat → α → List (Nat × α)
  | [], a, x => [(a, x)]
  | (p, y) :: rest, a, x =>
    if a < p then (a, x) :: (p, y) :: rest
    else if a = p then (a, x) :: rest
    else (p, y) :: cellsPut rest a x

/-- Lists nothing at `a`. -/
def cellsErase {α : Type} : List (Nat × α) → Nat → List (Nat × α)
  | [], _ => []
  | (p, y) :: rest, a => if p = a then rest else (p, y) :: cellsErase rest a

/-- The canonical form: every key listed is greater than the one before it. -/
def cellsRising {α : Type} : List (Nat × α) → Bool
  | [] => true
  | [_] => true
  | (p, _) :: (q, y) :: rest => p < q && cellsRising ((q, y) :: rest)

/-! ### The key buffer (R30, R61, R62) -/

/-- The byte at a position; `none` where the byte is unspecified (R30, log 4). -/
def Memory.read (m : List Host.Cell) (a : Nat) : Option Byte := cellsGet m a

/-- `KEYBUF[a] <- b`. -/
def Memory.write (m : List Host.Cell) (a : Nat) (b : Byte) : List Host.Cell := cellsPut m a b

/-- All bytes unspecified, as after reset and `KEY_CLR` (R30, R103). -/
def Memory.unspecified : List Host.Cell := []

/-- The canonical form of a key buffer: positions strictly rising. An unlisted position has no value, so no listed
byte equals what an unlisted one reads as. -/
def Memory.wf (m : List Host.Cell) : Bool := cellsRising m

/-- The bytes at `a, a+1, ..., a+n-1`; `none` when one of them is unspecified. -/
def memBytes (m : List Host.Cell) : Nat → Nat → Option (List Byte)
  | _, 0 => some []
  | a, n + 1 =>
    match Memory.read m a, memBytes m (a + 1) n with
    | some b, some bs => some (b :: bs)
    | _, _ => none

/-- `MemRead(a, n)` (R61): the little-endian word of the bytes at `a` to `a+n-1`, defined for `a + n <= KEYLEN`. -/
def memRead (s : State) (a n : Nat) : Option Word :=
  if a + n ≤ s.keylen.toNat then (memBytes s.keybuf a n).map leWord else none

/-- `KEYBUF[a+j] <- v[8j+7:8j]` for `j` in `0..n-1`. -/
def writeBytes (m : List Host.Cell) (a : Nat) (v : Word) : Nat → List Host.Cell
  | 0 => m
  | n + 1 => Memory.write (writeBytes m a v n) (a + n) (byteOf v n)

/-- `MemWrite(a, n, v)` (R61), defined for `a + n <= KEY_MAX`. -/
def memWrite (s : State) (a n : Nat) (v : Word) : Option State :=
  if a + n ≤ s.cfg.keyMax then some { s with keybuf := writeBytes s.keybuf a v n } else none

/-- `key()` (R30): `KEYBUF[0], ..., KEYBUF[KEYLEN-1]`. -/
def currentKey (s : State) : Option Key := memBytes s.keybuf 0 s.keylen.toNat

/-! ### The chain store (R38, R39) -/

/-- `CHAIN[i]`: an unlisted bucket has the empty chain (R39). -/
def chainOf (c : List (Nat × List Key)) (i : Nat) : List Key := (cellsGet c i).getD []

/-- `CHAIN[i] <- ks`. An empty chain is not listed, so absent and empty are one state (R39). -/
def setChain (c : List (Nat × List Key)) (i : Nat) (ks : List Key) : List (Nat × List Key) :=
  if ks = [] then cellsErase c i else cellsPut c i ks

/-- The canonical form of the chain store: buckets strictly rising, no empty chain listed. -/
def chainsWf (c : List (Nat × List Key)) : Bool := cellsRising c && c.all (fun e => e.2 ≠ [])

/-- The sum over `i` in `[0, n)` of `len(CHAIN[i])` (R40 (a)). -/
def entryCount (c : List (Nat × List Key)) : Nat → Nat
  | 0 => 0
  | n + 1 => entryCount c n + (chainOf c n).length

/-- The sum over `i` in `[0, n)` of `max(0, len(CHAIN[i]) - 1)` (R192). -/
def collisionCount (c : List (Nat × List Key)) : Nat → Nat
  | 0 => 0
  | n + 1 => collisionCount c n + ((chainOf c n).length - 1)

/-- The number of `i` in `[0, n)` with `CHAIN[i]` not empty (R193 (a)). -/
def occupiedCount (c : List (Nat × List Key)) : Nat → Nat
  | 0 => 0
  | n + 1 => occupiedCount c n + (if chainOf c n = [] then 0 else 1)

/-- The least position of a chain whose entry equals the key (R181, R177). -/
def findKey (k : Key) : List Key → Option Nat
  | [] => none
  | e :: es => if e = k then some 0 else (findKey k es).map (· + 1)

/-- `s without j` (00_scope.md section 5): the order of the rest is kept. -/
def without {α : Type} : List α → Nat → List α
  | [], _ => []
  | _ :: xs, 0 => xs
  | x :: xs, j + 1 => x :: without xs j

end Sys2Proof.Machine
end

