-- ==== Sys2Proof/Machine/Control.lean ====
section
/-! DEFINITION. The control commands of 40_control_and_key.md: `NOP` (R101) and `CLR_ERR` (R102). -/

namespace Sys2Proof.Machine

/-- `NOP` (R101): nothing but the completion of R100; it does not clear `ERRS`. -/
def execNop (s : State) : Result := finish s

/-- `CLR_ERR` (R102): `ERRS <- 0`, and the completion of R100. -/
def execClrErr (s : State) : Result := finish (clearSticky s)

end Sys2Proof.Machine
end

