-- ==== Sys2Proof/Machine/Fnv1a.lean ====
section
/-! DEFINITION. The FNV1a Hasher of 41_fnv1a.md: the byte step (R122), the four commands (R121 to R125), and the function
of R126. -/

namespace Sys2Proof.Machine

/-- One byte step, XOR stage first, multiply stage second (R122). -/
def fnvMix (acc w : Word) : Word := mul32 (xor32 acc w) fnvPrime

/-- The loop of R125: `n` iterations from position `p`. -/
def fnvLoop (s : State) : Nat → Nat → Word → Option Word
  | 0, _, acc => some acc
  | n + 1, p, acc =>
    match memRead s p 1 with
    | some w => fnvLoop s n (p + 1) (fnvMix acc w)
    | none => none

/-- The writes of `FNV_KEY` (R125): `FNV_ACC` and `DIGEST` from the current key. -/
def fnvKeyWrites (s : State) : Option State :=
  (fnvLoop s s.keylen.toNat 0 fnvBasis).map fun acc => { s with fnvAcc := acc, digest := abs32 acc }

/-- `FNV_INIT` (R121). -/
def execFnvInit (s : State) : Result := finish { s with fnvAcc := fnvBasis }

/-- `FNV_BYTE imm8` (R122). -/
def execFnvByte (imm8 : Byte) (s : State) : Result :=
  finish { s with fnvAcc := fnvMix s.fnvAcc (immOperand imm8) }

/-- `FNV_FINAL` (R124): `FNV_ACC` is not changed. -/
def execFnvFinal (s : State) : Result := finish { s with digest := abs32 s.fnvAcc }

/-- `FNV_KEY` (R125). -/
def execFnvKey (s : State) : Result :=
  match fnvKeyWrites s with
  | some t => finish t
  | none => .fault .keyRead

/-! ### The function of R126 -/

/-- The accumulators `a_j` of R126 from a given start. -/
def fnvFrom (acc : Word) : Key → Word
  | [] => acc
  | b :: bs => fnvFrom (mul32 (xor32 acc (zext32 b)) fnvPrime) bs

/-- `fnv1a_raw(bs)` (R126). -/
def fnv1aRaw (bs : Key) : Word := fnvFrom fnvBasis bs

/-- `fnv1a(bs) = abs32(fnv1a_raw(bs))` (R126). -/
def fnv1a (bs : Key) : Word := abs32 (fnv1aRaw bs)

end Sys2Proof.Machine
end

