-- ==== Sys2Proof/Machine/KeyBuffer.lean ====
section
/-! DEFINITION. The key-buffer commands of 40_control_and_key.md: `KEY_CLR` (R103), `KEY_PUSH` (R104), `KEY_PUSHW`
(R105). -/

namespace Sys2Proof.Machine

/-- Appends `n` bytes of `v` at KEYLEN, or fails with `EKEYOVF` and pushes none (R104, R105): MemWrite at KEYLEN, then
`KEYLEN <- KEYLEN + n`. -/
def pushBytes (n : Nat) (v : Word) (s : State) : Result :=
  match memWrite s s.keylen.toNat n v with
  | some t => finish { t with keylen := t.keylen + BitVec.ofNat 32 n }
  | none => .fault .keyWrite

/-- `KEY_CLR` (R103): `KEYLEN <- 0`; the bytes of KEYBUF become unspecified (log 4). -/
def execKeyClr (s : State) : Result := finish { s with keylen := 0, keybuf := Memory.unspecified }

/-- `KEY_PUSH imm8` (R104). -/
def execKeyPush (imm8 : Byte) (s : State) : Result :=
  if s.keylen.toNat = s.cfg.keyMax then fail .ekeyovf s
  else pushBytes 1 (immOperand imm8) s

/-- `KEY_PUSHW` (R105): four bytes of ARG, the first in ARG[7:0], or none. -/
def execKeyPushw (s : State) : Result :=
  if s.keylen.toNat + 4 > s.cfg.keyMax then fail .ekeyovf s
  else pushBytes 4 (argOperand s) s

end Sys2Proof.Machine
end

