-- ==== Sys2Proof/Machine/Murmur.lean ====
section
/-! DEFINITION. The Murmur Hasher of 42_murmur.md: the helpers (R142, R144, R146), the five commands (R141 to R152), and
the function of R153. -/

namespace Sys2Proof.Machine

/-- `mixk(k)` (R142). -/
def mixk (k : Word) : Word := mul32 (rotl32 (mul32 k murC1) murR1) murC2

/-- `fold(h, k)` (R144): first stage XOR, rotate, second stage multiply and add. -/
def murFold (h k : Word) : Word := add32 (mul32 (rotl32 (xor32 h (mixk k)) murR2) murM) murN

/-- `h XOR (h >>> r)`: one xor-shift of the finalizer (R146), the shift logical. -/
def xorShift (h : Word) (r : Nat) : Word := xor32 h (lsr32 h r)

/-- `fmix32(h)` (R146). -/
def fmix32 (h : Word) : Word :=
  xorShift (mul32 (xorShift (mul32 (xorShift h 16) murF1) 13) murF2) 16

/-- The raw value of a state of the core (R151): tail fold when bytes are pending, length fold, finalizer. -/
def murRawOf (h tail len : Word) : Word :=
  fmix32 (xor32 (if len.toNat % 4 > 0 then xor32 h (mixk tail) else h) len)

/-- The block loop of R152: `n` blocks from block `b`. -/
def murBlockLoop (s : State) : Nat → Nat → Word → Option Word
  | 0, _, h => some h
  | n + 1, b, h =>
    match memRead s (4 * b) 4 with
    | some k => murBlockLoop s n (b + 1) (murFold h k)
    | none => none

/-- The tail loop of R152: `n` bytes from tail byte `j`, the tail starting at position `base`. -/
def murTailLoop (s : State) (base : Nat) : Nat → Nat → Word → Option Word
  | 0, _, t => some t
  | n + 1, j, t =>
    match memRead s (base + j) 1 with
    | some w => murTailLoop s base n (j + 1) (or32 t (shl32 w (8 * j)))
    | none => none

/-- The writes of `MUR_KEY` (R152): `MUR_H`, `MUR_TAIL`, `MUR_LEN` and `DIGEST` from the current key. -/
def murKeyWrites (s : State) : Option State :=
  match murBlockLoop s (s.keylen.toNat / 4) 0 murSeed,
        murTailLoop s (4 * (s.keylen.toNat / 4)) (s.keylen.toNat % 4) 0 0 with
  | some h, some t =>
    some { s with murH := h, murTail := t, murLen := s.keylen, digest := abs32 (murRawOf h t s.keylen) }
  | _, _ => none

/-- `MUR_INIT` (R141). -/
def execMurInit (s : State) : Result := finish { s with murH := murSeed, murTail := 0, murLen := 0 }

/-- `MUR_TAIL` with one more byte at its place in the block (R143). -/
def murTailWith (s : State) (imm8 : Byte) : Word :=
  or32 s.murTail (shl32 (immOperand imm8) (8 * (s.murLen.toNat % 4)))

/-- `MUR_BYTE imm8` (R143, R150). -/
def execMurByte (imm8 : Byte) (s : State) : Result :=
  if s.murLen = 0xFFFFFFFF#32 then fail .elen s
  else if s.murLen.toNat % 4 = 3 then
    finish { s with murH := murFold s.murH (murTailWith s imm8), murTail := 0, murLen := s.murLen + 1 }
  else finish { s with murTail := murTailWith s imm8, murLen := s.murLen + 1 }

/-- `MUR_BLOCK` (R148): `ESEQ` (R149) is checked before `ELEN` (R150). -/
def execMurBlock (s : State) : Result :=
  if s.murLen.toNat % 4 ≠ 0 then fail .eseq s
  else if s.murLen.toNat > 0xFFFFFFFB then fail .elen s
  else finish { s with murH := murFold s.murH (argOperand s), murLen := s.murLen + 4 }

/-- `MUR_FINAL` (R151): the three state registers are not changed. -/
def execMurFinal (s : State) : Result :=
  finish { s with digest := abs32 (murRawOf s.murH s.murTail s.murLen) }

/-- `MUR_KEY` (R152). -/
def execMurKey (s : State) : Result :=
  match murKeyWrites s with
  | some t => finish t
  | none => .fault .keyRead

/-! ### The function of R153 -/

/-- `k_b` of R153: the little-endian word of key bytes `4b` to `4b+3`. -/
def blockAt (bs : Key) (b : Nat) : Word := leWord ((bs.drop (4 * b)).take 4)

/-- `h_b` of R153. -/
def murHashAt (bs : Key) : Nat → Word
  | 0 => murSeed
  | b + 1 => murFold (murHashAt bs b) (blockAt bs b)

/-- `h_q` of R153, `q = floor(n/4)`. -/
def murHashOf (bs : Key) : Word := murHashAt bs (bs.length / 4)

/-- `tail` of R153: the little-endian word of the bytes after the last full block. -/
def murTailOf (bs : Key) : Word := leWord (bs.drop (4 * (bs.length / 4)))

/-- `murmur_raw(bs)` (R153). -/
def murmurRaw (bs : Key) : Word :=
  fmix32 (xor32 (xor32 (murHashOf bs) (mixk (murTailOf bs))) (BitVec.ofNat 32 bs.length))

/-- `murmur(bs) = abs32(murmur_raw(bs))` (R153). -/
def murmur (bs : Key) : Word := abs32 (murmurRaw bs)

end Sys2Proof.Machine
end

