-- ==== Sys2Proof/Machine/Table.lean ====
section
/-! DEFINITION. The Chained Hash Table of 43_table.md: the lookup hash (R171, R176) and the eight commands (R172 to
R194). -/

namespace Sys2Proof.Machine

/-- The writes of the whole-key command of the table's hasher (R171); the other core's registers are not touched. -/
def tableKeyWrites (s : State) : Option State :=
  match s.hsel with
  | .fnv => fnvKeyWrites s
  | .mur => murKeyWrites s

/-- `TableHash()` (R171): those writes, then `IDX <- umod(DIGEST, BUCKETS)` (R176). -/
def tableHash (s : State) : Option State :=
  (tableKeyWrites s).map fun t : State => { t with idx := umod t.digest t.buckets }

/-- A command that needs a live table fails with `ENOTBL` as its first check when there is none (R182). -/
def withTable (s : State) (f : Result) : Result := if s.tvalid then f else fail .enotbl s

/-- A command that hashes the current key: the state after `TableHash()` and the key. -/
def withHashedKey (s : State) (f : State → Key → Result) : Result :=
  match tableHash s, currentKey s with
  | some t, some k => f t k
  | _, _ => .fault .keyRead

/-- The chain of the bucket `IDX` (R29, R181). -/
def idxChain (s : State) : List Key := chainOf s.chains s.idx.toNat

/-- `TBL_INIT sel` (R172): `EBUSY` (R174) is checked before `ECFG` (R173). -/
def execTblInit (sel : Hasher) (s : State) : Result :=
  if s.tvalid then fail .ebusy s
  else if argOperand s = 0 ∨ (argOperand s).toNat > s.cfg.maxBuckets then fail .ecfg s
  else finish { s with tvalid := true, hsel := sel, buckets := argOperand s, size := 0, chains := [] }

/-- `TBL_DISCARD` (R175). -/
def execTblDiscard (s : State) : Result :=
  withTable s (finish { s with tvalid := false, hsel := .fnv, buckets := 0, size := 0, chains := [] })

/-- `TBL_ADD` (R178): `EFULL` (R179) is checked before hashing; the key is appended at the end of its chain. -/
def execTblAdd (s : State) : Result :=
  withTable s <|
    if s.size.toNat = s.cfg.maxEntries then fail .efull s
    else withHashedKey s fun t k =>
      finish { t with chains := setChain t.chains t.idx.toNat (idxChain t ++ [k]), size := t.size + 1 }

/-- `TBL_CONTAINS` (R180): only the chain of bucket IDX is searched. -/
def execTblContains (s : State) : Result :=
  withTable s <| withHashedKey s fun t k =>
    match findKey k (idxChain t) with
    | none => finish { t with result := 0 }
    | some _ => finish { t with result := 1 }

/-- `TBL_REMOVE` (R186): the first match goes; when there is none the lookup's writes and `RESULT <- 0` stand and the
command fails with `ENOTFOUND` (R187). -/
def execTblRemove (s : State) : Result :=
  withTable s <| withHashedKey s fun t k =>
    match findKey k (idxChain t) with
    | none => fail .enotfound { t with result := 0 }
    | some j =>
      finish { t with
        chains := setChain t.chains t.idx.toNat (without (idxChain t) j), size := t.size - 1, result := 1 }

/-- `TBL_DIST` (R190). -/
def execTblDist (s : State) : Result :=
  withTable s <|
    if (argOperand s).toNat ≥ s.buckets.toNat then fail .erange s
    else finish { s with result := BitVec.ofNat 32 (chainOf s.chains (argOperand s).toNat).length }

/-- `TBL_COLL` (R192): the sum over all buckets of `max(0, len - 1)`. -/
def execTblColl (s : State) : Result :=
  withTable s <| finish { s with result := BitVec.ofNat 32 (collisionCount s.chains s.buckets.toNat) }

/-- `TBL_SIZE` (R194). -/
def execTblSize (s : State) : Result := withTable s <| finish { s with result := s.size }

/-- The hasher's function on a key: `H` of R40 (c). -/
def hashOf : Hasher → Key → Word
  | .fnv => fnv1a
  | .mur => murmur

end Sys2Proof.Machine
end

