-- ==== Sys2Proof/Machine/Dispatch.lean ====
section
/-! DEFINITION. `exec`: one arm per command, each one direct call of the command's meaning. -/

namespace Sys2Proof.Machine

def exec (i : Instr) (s : State) : Host.Outcome State Fault Refusal :=
  match i with
  | .nop => Sys2Proof.Machine.execNop s
  | .clrErr => Sys2Proof.Machine.execClrErr s
  | .keyClr => Sys2Proof.Machine.execKeyClr s
  | .keyPush imm8 => Sys2Proof.Machine.execKeyPush imm8 s
  | .keyPushw => Sys2Proof.Machine.execKeyPushw s
  | .fnvInit => Sys2Proof.Machine.execFnvInit s
  | .fnvByte imm8 => Sys2Proof.Machine.execFnvByte imm8 s
  | .fnvFinal => Sys2Proof.Machine.execFnvFinal s
  | .fnvKey => Sys2Proof.Machine.execFnvKey s
  | .murInit => Sys2Proof.Machine.execMurInit s
  | .murByte imm8 => Sys2Proof.Machine.execMurByte imm8 s
  | .murBlock => Sys2Proof.Machine.execMurBlock s
  | .murFinal => Sys2Proof.Machine.execMurFinal s
  | .murKey => Sys2Proof.Machine.execMurKey s
  | .tblInit sel => Sys2Proof.Machine.execTblInit sel s
  | .tblDiscard => Sys2Proof.Machine.execTblDiscard s
  | .tblAdd => Sys2Proof.Machine.execTblAdd s
  | .tblContains => Sys2Proof.Machine.execTblContains s
  | .tblRemove => Sys2Proof.Machine.execTblRemove s
  | .tblDist => Sys2Proof.Machine.execTblDist s
  | .tblColl => Sys2Proof.Machine.execTblColl s
  | .tblSize => Sys2Proof.Machine.execTblSize s

end Sys2Proof.Machine
end

