-- ==== Sys2Proof/Machine/Port.lean ====
section
/-! DEFINITION. The register port: the register map (10_state.md R45), the two transactions (20_memory.md R66), the effect
of a CMD write (30_encoding.md R87), and the reset event (70_reset_and_hazards.md R240). -/

namespace Sys2Proof.Machine

/-- The byte offset of a register on the port (R45). -/
def regOffset : Reg → Nat
  | .cmd => 0x00
  | .arg => 0x04
  | .status => 0x08
  | .result => 0x0C
  | .digest => 0x10
  | .idx => 0x14
  | .fnvAcc => 0x18
  | .murH => 0x1C
  | .murTail => 0x20
  | .murLen => 0x24
  | .keylen => 0x28
  | .buckets => 0x2C
  | .size => 0x30
  | .id => 0x34
  | .capKey => 0x38
  | .capBuckets => 0x3C
  | .capEntries => 0x40

/-- The register at an offset; `none` at the reserved offsets 0x44 to 0xFC (R45). -/
def regAt : Nat → Option Reg
  | 0x00 => some .cmd
  | 0x04 => some .arg
  | 0x08 => some .status
  | 0x0C => some .result
  | 0x10 => some .digest
  | 0x14 => some .idx
  | 0x18 => some .fnvAcc
  | 0x1C => some .murH
  | 0x20 => some .murTail
  | 0x24 => some .murLen
  | 0x28 => some .keylen
  | 0x2C => some .buckets
  | 0x30 => some .size
  | 0x34 => some .id
  | 0x38 => some .capKey
  | 0x3C => some .capBuckets
  | 0x40 => some .capEntries
  | _ => none

/-- What a read of a register returns (R45): `CMD` reads 0 (R42), `ID` and the `CAP_*` registers are constants (R43,
R44). -/
def regValue (s : State) : Reg → Word
  | .cmd => 0
  | .arg => s.arg
  | .status => statusWord s
  | .result => s.result
  | .digest => s.digest
  | .idx => s.idx
  | .fnvAcc => s.fnvAcc
  | .murH => s.murH
  | .murTail => s.murTail
  | .murLen => s.murLen
  | .keylen => s.keylen
  | .buckets => s.buckets
  | .size => s.size
  | .id => idValue
  | .capKey => BitVec.ofNat 32 s.cfg.keyMax
  | .capBuckets => BitVec.ofNat 32 s.cfg.maxBuckets
  | .capEntries => BitVec.ofNat 32 s.cfg.maxEntries

/-- `HostRead(off)` (R66): the register's value, or 0 at a reserved offset. -/
def hostRead (off : Nat) (s : State) : Word :=
  match regAt off with
  | some r => regValue s r
  | none => 0

/-- The byte at an address of the port when a platform maps it onto a byte-addressed bus: the lowest address of a
register is its bits 7 to 0 (R62 (b)). No transaction is narrower than 32 bits (R64 (d)); this is only how such a
platform numbers the bytes. -/
def portByte (addr : Nat) (s : State) : Byte := byteOf (hostRead (4 * (addr / 4)) s) (addr % 4)

/-- `execute(w)` (R87): an illegal word fails with `EILL` and changes nothing else (R222). -/
def execute (w : Word) (s : State) : Result :=
  match decode w with
  | .ok i => exec i s
  | .error _ => fail .eill s

/-- `HostWrite(off, v)` (R66): CMD executes, ARG is written, every other offset ignores the write. -/
def hostWrite (off : Nat) (v : Word) (s : State) : Result :=
  match regAt off with
  | some .cmd => execute v s
  | some .arg => .next { s with arg := v }
  | _ => .next s

/-- The reset event (R240, R241): every piece of state takes its reset value; the parameters, the host's remaining
transactions and the values the host has already read are not state of the block. -/
def resetBlock (s : State) : State :=
  { State.resetWith s.cfg with port := s.port, returned := s.returned }

/-- Performs one transaction. The port does not have an offset that is not one of its 64 word offsets (U11, log 5). -/
def perform (t : Txn) (s : State) : Result :=
  match t with
  | .write off v => if portOffset off then hostWrite off v s else .refused (.portAccess off)
  | .read off =>
    if portOffset off then .next { s with returned := s.returned ++ [hostRead off s] } else .refused (.portAccess off)
  | .reset => .next (resetBlock s)

/-- Performs a finite list of transactions in issue order (R21, R70), up to the first that stops. -/
def performAll : List Txn → State → Result
  | [], s => .next s
  | t :: ts, s =>
    match perform t s with
    | .next u => performAll ts u
    | .fault f => .fault f
    | .refused r => .refused r

/-- One step of the model: the next transaction of the host, or nothing when there is none (R22). -/
def nextTxn (s : State) : Result :=
  match s.port with
  | [] => .next s
  | t :: ts => perform t { s with port := ts }

end Sys2Proof.Machine
end

