-- ==== Sys2Proof/Machine/Step.lean ====
section
/-! DEFINITION. The step of the machine: one port transaction (00_scope.md R8). -/

namespace Sys2Proof.Machine

/-- One step: the host's next transaction is performed whole (R8, R69); with none waiting, nothing changes (R22). -/
def step (s : State) : Host.Outcome State Fault Refusal := nextTxn s

/-- `s` with the write of the command word `w` to CMD as the host's next transaction: the block fetches nothing (R21),
so this is where its next command comes from (log 1). -/
def State.withFetchWord (s : State) (_nbits w : Nat) : State :=
  { s with port := .write 0x00 (BitVec.ofNat 32 w) :: s.port }

end Sys2Proof.Machine
end

