-- ==== Sys2Proof/Machine/Assembler.lean ====
section
/-! DEFINITION. The assembler lines of 30_encoding.md R88 and the expansions of the pseudo-instructions of R89: how the
spec writes a host program as port transactions. -/

namespace Sys2Proof.Machine

/-- A command line (R88): `HostWrite(0x00, w)` with `w` the encoding of R84. -/
def lineCmd (i : Instr) : Txn := .write 0x00 (encode i)

/-- `ARG = v` (R88): `HostWrite(0x04, v)`. -/
def lineArg (v : Word) : Txn := .write 0x04 v

/-- `rd NAME` (R88): `HostRead(off of NAME)`. -/
def lineRd (r : Reg) : Txn := .read (regOffset r)

/-- The byte of a character: its code, the bits above bit 7 masked (R89, G6). The conversion is the host's (R4 (e)). -/
def charByte (c : Char) : Byte := BitVec.ofNat 8 c.toNat

/-- The commands of `KEY b1 ... bn` (R89): `KEY_CLR`; `KEY_PUSH b1`; ...; `KEY_PUSH bn`. -/
def keyCommands (bs : Key) : List Instr := .keyClr :: bs.map .keyPush

/-- `KEY b1 ... bn` (R89). -/
def keyLines (bs : Key) : List Txn := (keyCommands bs).map lineCmd

/-- `DIST i` (R89). -/
def distLines (i : Word) : List Txn := [lineArg i, lineCmd .tblDist, lineRd .result]

/-- The expansion of a pseudo-instruction (R89). -/
def expand : Pseudo → List Txn
  | .key bs => keyLines bs
  | .keyText cs => keyLines (cs.map charByte)
  | .fnv1a cs => keyLines (cs.map charByte) ++ [lineCmd .fnvKey, lineRd .digest]
  | .murmur cs => keyLines (cs.map charByte) ++ [lineCmd .murKey, lineRd .digest]
  | .new sel n => [lineArg n, lineCmd (.tblInit sel)]
  | .add cs => keyLines (cs.map charByte) ++ [lineCmd .tblAdd]
  | .contains cs => keyLines (cs.map charByte) ++ [lineCmd .tblContains, lineRd .result]
  | .remove cs => keyLines (cs.map charByte) ++ [lineCmd .tblRemove, lineRd .status]
  | .dist i => distLines i
  | .getdist n => (List.range n).flatMap fun i => distLines (BitVec.ofNat 32 i)
  | .coll => [lineCmd .tblColl, lineRd .result]
  | .size => [lineCmd .tblSize, lineRd .result]

/-- Executes a list of commands in order, up to the first that stops. -/
def execAll : List Instr → State → Result
  | [], s => .next s
  | i :: is, s =>
    match exec i s with
    | .next u => execAll is u
    | .fault f => .fault f
    | .refused r => .refused r

end Sys2Proof.Machine
end

