-- ==== Sys2Proof/Safety.lean ====
section
/-! DEFINITION. What the claims are stated in: the invariants the spec gives the state (10_state.md R35, R40 and the
ranges of R26 to R37) and the parts of a state a claim compares. -/

namespace Sys2Proof.Machine

/-! ### The invariant -/

/-- R6: the parameters meet their constraints. -/
def CfgInv (s : State) : Prop := s.cfg.wf = true

/-- R210: codes 11 to 15 are never in `ERR`; R212 and R100: a nonzero `ERR` comes with `ERRS`. -/
def StatusInv (s : State) : Prop := s.err.toNat ≤ 10 ∧ (s.err ≠ 0 → s.errs = true)

/-- R28: bit 31 of `DIGEST` is 1 only when `DIGEST = 0x80000000`. -/
def DigestInv (s : State) : Prop := s.digest.getLsbD 31 = true → s.digest = 0x80000000#32

/-- R30: KEYLEN is in [0, KEY_MAX], and the bytes with a value are exactly those of the current key (log 4); the
positions listed rise strictly, which is the canonical form of the key buffer. -/
def KeyInv (s : State) : Prop :=
  s.keylen.toNat ≤ s.cfg.keyMax ∧ s.keybuf.map Prod.fst = List.range s.keylen.toNat

/-- R35: with `r = MUR_LEN mod 4`, bits 31 down to 8r of `MUR_TAIL` are zero. -/
def MurInv (s : State) : Prop := lsr32 s.murTail (8 * (s.murLen.toNat % 4)) = 0

/-- R36 and R40 (d): the bucket count of a live table is in [1, MAX_BUCKETS]; without a table BUCKETS, SIZE and HSEL are
0 and there is no chain (R38). -/
def LiveInv (s : State) : Prop :=
  (s.tvalid = true → 1 ≤ s.buckets.toNat ∧ s.buckets.toNat ≤ s.cfg.maxBuckets) ∧
  (s.tvalid = false → s.buckets = 0 ∧ s.size = 0 ∧ s.hsel = .fnv ∧ s.chains = [])

/-- The chain store is in its canonical form and lists only buckets of the table (R38, log 6). -/
def ChainInv (s : State) : Prop := chainsWf s.chains = true ∧ ∀ e ∈ s.chains, e.1 < s.buckets.toNat

/-- R40 (a), (b): SIZE is the sum of the chain lengths, and at most MAX_ENTRIES. -/
def SizeInv (s : State) : Prop :=
  s.size.toNat = entryCount s.chains s.buckets.toNat ∧ s.size.toNat ≤ s.cfg.maxEntries

/-- R38 and R40 (c): every stored key has at most KEY_MAX bytes and stands in the bucket its own digest selects. -/
def PlacedInv (s : State) : Prop :=
  ∀ e ∈ s.chains, ∀ k ∈ e.2, k.length ≤ s.cfg.keyMax ∧ (hashOf s.hsel k).toNat % s.buckets.toNat = e.1

/-- The invariant of the machine: what the spec says is true after reset and after every command. -/
structure Inv (s : State) : Prop where
  cfg : CfgInv s
  status : StatusInv s
  digest : DigestInv s
  key : KeyInv s
  mur : MurInv s
  live : LiveInv s
  chain : ChainInv s
  size : SizeInv s
  placed : PlacedInv s

/-! ### What claims compare -/

/-- The state with other flags: `ERR` and `ERRS` replaced (R27). -/
def withFlags (e : BitVec 4) (b : Bool) (s : State) : State := { s with err := e, errs := b }

/-- The table's state: TVALID, HSEL, BUCKETS, SIZE and every chain are the same (R187, R213). -/
def SameTable (s t : State) : Prop :=
  t.tvalid = s.tvalid ∧ t.hsel = s.hsel ∧ t.buckets = s.buckets ∧ t.size = s.size ∧ t.chains = s.chains

/-- The key buffer is the same: KEYLEN and every byte (R213). -/
def SameKey (s t : State) : Prop := t.keylen = s.keylen ∧ t.keybuf = s.keybuf

/-- The hash state after `TableHash()` on the key `k` (R171), in the words of R126 and R153: the selected core, `DIGEST`
and `IDX`; nothing else. -/
def lookedUp (k : Key) (s : State) : State :=
  match s.hsel with
  | .fnv => { s with fnvAcc := fnv1aRaw k, digest := fnv1a k, idx := umod (fnv1a k) s.buckets }
  | .mur =>
    { s with murH := murHashOf k, murTail := murTailOf k, murLen := BitVec.ofNat 32 k.length, digest := murmur k
             idx := umod (murmur k) s.buckets }

/-- The bucket of a key in the live table: `H(k) mod BUCKETS` (R176, R40 (c)). -/
def bucketOf (k : Key) (s : State) : Nat := (umod (hashOf s.hsel k) s.buckets).toNat

/-- The reset values of the state, row by row of R240. -/
def ResetValues (t : State) : Prop :=
  t.arg = 0 ∧ t.result = 0 ∧ t.err = 0 ∧ t.errs = false ∧ t.tvalid = false ∧ t.hsel = .fnv ∧ minneg t = false ∧
  t.digest = 0 ∧ t.idx = 0 ∧ t.fnvAcc = 0x811C9DC5 ∧ t.murH = 0x00000100 ∧ t.murTail = 0 ∧ t.murLen = 0 ∧
  t.keylen = 0 ∧ t.buckets = 0 ∧ t.size = 0 ∧ ∀ i, chainOf t.chains i = []

/-- The register map of R45: what a read of each offset returns. -/
def portMap (s : State) : List (Nat × Word) :=
  [(0x00, 0), (0x04, s.arg), (0x08, statusWord s), (0x0C, s.result), (0x10, s.digest), (0x14, s.idx),
   (0x18, s.fnvAcc), (0x1C, s.murH), (0x20, s.murTail), (0x24, s.murLen), (0x28, s.keylen), (0x2C, s.buckets),
   (0x30, s.size), (0x34, 0x4E434846), (0x38, BitVec.ofNat 32 s.cfg.keyMax),
   (0x3C, BitVec.ofNat 32 s.cfg.maxBuckets), (0x40, BitVec.ofNat 32 s.cfg.maxEntries)]

/-- The 22 opcodes of R84 by format: N and A, then B, then S. -/
def opcodesNA : List Nat :=
  [0x00, 0x01, 0x10, 0x12, 0x20, 0x22, 0x23, 0x30, 0x32, 0x33, 0x34, 0x41, 0x42, 0x43, 0x44, 0x45, 0x46, 0x47]

def opcodesB : List Nat := [0x11, 0x21, 0x31]

/-- The table commands that hash the current key (R171). -/
def hashesTheKey : Instr → Bool
  | .tblAdd | .tblContains | .tblRemove => true
  | _ => false

/-- The table commands that need a live table (R182). -/
def needsTable : Instr → Bool
  | .tblDiscard | .tblAdd | .tblContains | .tblRemove | .tblDist | .tblColl | .tblSize => true
  | _ => false

/-- The commands that can never fail once decoded (R210). -/
def neverFails : Instr → Bool
  | .nop | .clrErr | .keyClr | .fnvInit | .fnvByte _ | .fnvFinal | .fnvKey | .murInit | .murFinal | .murKey => true
  | _ => false

/-! ### Streamed hashes (R126, R153)

A streamed hash may have other transactions between its bytes, as long as none writes the core's registers (R46, R244
(a)). Whether a table command writes them depends on the state it meets, so the bytes are read along the run. -/

/-- A table command that hashes the key uses this core: a live table with this hasher (R171, R46). Without a table it
fails before it hashes (R182). -/
def tableUses (h : Hasher) (s : State) : Bool := s.tvalid && s.hsel = h

/-- What a command gives to a streamed FNV hash: its byte, no byte when it leaves FNV_ACC, or `none` when it writes
FNV_ACC otherwise (R46). -/
def fnvBytes (s : State) : Instr → Option Key
  | .fnvByte b => some [b]
  | .fnvInit | .fnvKey => none
  | .tblAdd | .tblContains | .tblRemove => if tableUses .fnv s then none else some []
  | .nop | .clrErr | .keyClr | .keyPush _ | .keyPushw | .fnvFinal | .murInit | .murByte _ | .murBlock | .murFinal
  | .murKey | .tblInit _ | .tblDiscard | .tblDist | .tblColl | .tblSize => some []

/-- What a command gives to a streamed Murmur hash: the byte of MUR_BYTE, the four bytes of ARG for a MUR_BLOCK on a
block boundary (off one it fails and writes nothing, R149), no byte when it leaves the Murmur registers, or `none` when it
writes them otherwise (R46). -/
def murBytes (s : State) : Instr → Option Key
  | .murByte b => some [b]
  | .murBlock =>
    some (if s.murLen.toNat % 4 = 0 then [byteOf s.arg 0, byteOf s.arg 1, byteOf s.arg 2, byteOf s.arg 3] else [])
  | .murInit | .murKey => none
  | .tblAdd | .tblContains | .tblRemove => if tableUses .mur s then none else some []
  | .nop | .clrErr | .keyClr | .keyPush _ | .keyPushw | .fnvInit | .fnvByte _ | .fnvFinal | .fnvKey | .murFinal
  | .tblInit _ | .tblDiscard | .tblDist | .tblColl | .tblSize => some []

/-- The same for a transaction: a CMD write gives what its command gives, an illegal word, any other write and a read
give no byte, and reset breaks the hash. -/
def txnBytes (bytes : State → Instr → Option Key) (x : Txn) (s : State) : Option Key :=
  match x with
  | .write off w =>
    if off = 0x00 then
      match decode w with
      | .ok i => bytes s i
      | .error _ => some []
    else some []
  | .read _ => some []
  | .reset => none

/-- The bytes a run of transactions streams into a core, in order; `none` when a transaction of the run breaks the
hash. -/
def streamed (bytes : State → Instr → Option Key) : List Txn → State → Option Key
  | [], _ => some []
  | x :: xs, s =>
    match txnBytes bytes x s, perform x s with
    | some bs, .next t => (streamed bytes xs t).map (bs ++ ·)
    | some bs, _ => some bs
    | none, _ => none

/-- The entries of the live table equal to a key, in the key's own bucket (R177, R195 (e)). -/
def copiesOf (k : Key) (s : State) : Nat := (chainOf s.chains (bucketOf k s)).count k

end Sys2Proof.Machine
end

