-- ==== Sys2Proof/Certificates/Slice0/Obligations.lean ====
section
/-! DEFINITION. The statements for the provers, from the numbered rules of spec/. Each docstring names the rule. -/

open Sys2Proof Sys2Proof.Machine

/-! ## Encoding (30_encoding.md) -/

/-- R84, R87, R88: decoding the encoding of a well-formed command gives it back, with every operand at every value the
encoding admits; so does the decoder on the word's bytes in the order of R62 (b), numbered as the opcode table
numbers them. -/
def Obligations.DecodeOfEncodeIsTheCommand : Prop :=
  ∀ i : Instr, i.wf = true → decode (encode i) = .ok i ∧ decodeTableWord 32 (encode i).toNat = some i

/-- R84: for each of the 22 rows, a word encodes the row's command exactly when `(w AND mask) = match`; the rows'
mnemonics are distinct and no word matches two rows. -/
def Obligations.WordsEncodeExactlyTheirRow : Prop :=
  opcodeTable.length = 22 ∧ (opcodeTable.map OpcodeRow.mnemonic).Nodup ∧
  (∀ row ∈ opcodeTable, ∀ w : Word,
    w &&& row.mask = row.pattern ↔ ∃ i, decode w = .ok i ∧ mnemonic i = row.mnemonic) ∧
  ∀ row ∈ opcodeTable, ∀ row' ∈ opcodeTable, ∀ w : Word,
    w &&& row.mask = row.pattern → w &&& row'.mask = row'.pattern → row = row'

/-- R85, R222: which words are illegal, that 788 words are legal, and that an illegal word, in any state, completes with
`ERR = EILL` (1), sets `ERRS`, and changes no other state. -/
def Obligations.IllegalWordsExecuteNothing : Prop :=
  (∀ w : Word, (∃ e, decode w = .error e) ↔
    (w.toNat % 256 ∉ opcodesNA ∧ w.toNat % 256 ∉ opcodesB ∧ w.toNat % 256 ≠ 0x40) ∨
    (w.toNat % 256 ∈ opcodesNA ∧ w.toNat / 2 ^ 8 ≠ 0) ∨
    (w.toNat % 256 ∈ opcodesB ∧ w.toNat / 2 ^ 16 ≠ 0) ∨
    (w.toNat % 256 = 0x40 ∧ w.toNat / 2 ^ 9 ≠ 0)) ∧
  (∃ l : List Word, l.Nodup ∧ l.length = 788 ∧ ∀ w, w ∈ l ↔ ∃ i, decode w = .ok i) ∧
  ∀ (w : Word) (s : State) (e : DecodeError), decode w = .error e →
    execute w s = .next { s with err := 1, errs := true }

/-- Words written out from the encodings of R81 and R84 decode to their commands, one of each family and format, and
words one bit away do not (vectors E1 to E13). -/
def Obligations.SampleWordsDecode : Prop :=
  decode 0x00000001 = .ok .clrErr ∧ decode 0x00004811 = .ok (.keyPush 0x48) ∧ decode 0x00000012 = .ok .keyPushw ∧
  decode 0x0000FF21 = .ok (.fnvByte 0xFF) ∧ decode 0x00000031 = .ok (.murByte 0x00) ∧
  decode 0x00000040 = .ok (.tblInit .fnv) ∧ decode 0x00000140 = .ok (.tblInit .mur) ∧
  decode 0x00000044 = .ok .tblRemove ∧ decode 0x00000100 = .error (.reservedBitsSet 0x00) ∧
  decode 0x00010011 = .error (.reservedBitsSet 0x11) ∧ decode 0x00000240 = .error (.reservedBitsSet 0x40) ∧
  decode 0x00000002 = .error (.unassignedOpcode 0x02)

/-! ## The port and the step (20_memory.md, 10_state.md) -/

/-- R66, R87: when the host's next transaction writes a word to CMD and the word decodes to a command, the step takes
the transaction from the queue and runs exactly that command. The queue is the model's form of the host (log 1). -/
def Obligations.StepRunsTheDecodedCommand : Prop :=
  ∀ (s : State) (w : Word) (i : Instr) (rest : List Txn), decode w = .ok i →
    (s.port = .write 0x00 w :: rest → step s = exec i { s with port := rest }) ∧
    step (s.withFetchWord 32 w.toNat) = exec i s

/-- R66, R45: the effect of each port transaction by offset. A CMD write executes, an ARG write writes ARG, every other
write is ignored; a read returns the value of the register map, or 0 at CMD and at the reserved offsets, and changes
nothing in the block. That a transaction is taken from a queue, and that the value a read returns is appended to a list,
is the model's choice (logs 1 and 2). -/
def Obligations.PortTransactionEffects : Prop :=
  ∀ (s : State) (off : Nat) (v : Word) (rest : List Txn), off % 4 = 0 → off ≤ 0xFC →
    (s.port = .write off v :: rest →
      step s = if off = 0x00 then execute v { s with port := rest }
        else if off = 0x04 then .next { s with port := rest, arg := v }
        else .next { s with port := rest }) ∧
    (s.port = .read off :: rest →
      step s = .next { s with port := rest, returned := s.returned ++ [((portMap s).lookup off).getD 0] })

/-- R67: two reads with no write between them return the same value and change nothing in the block; a write of ARG is
idempotent; a write elsewhere than CMD and ARG does nothing; a CMD write is in general not idempotent. The list of
returned values, the one thing a read adds to, is the model's own (log 2). -/
def Obligations.ReadsHaveNoSideEffect : Prop :=
  (∀ (s : State) (off : Nat), off % 4 = 0 → off ≤ 0xFC →
    ∃ v, performAll [.read off, .read off] s = .next { s with returned := s.returned ++ [v, v] }) ∧
  (∀ (s : State) (v : Word), performAll [.write 0x04 v, .write 0x04 v] s = perform (.write 0x04 v) s) ∧
  (∀ (s : State) (off : Nat) (v : Word), off % 4 = 0 → off ≤ 0xFC → off ≠ 0x00 → off ≠ 0x04 →
    perform (.write off v) s = .next s) ∧
  ∃ (s : State) (w : Word), performAll [.write 0x00 w, .write 0x00 w] s ≠ perform (.write 0x00 w) s

/-- R66, R64 (d), U11 of 93_implementation_defined.md: the port functions are defined only for the 64 word offsets; a
transaction at any other offset is refused by name, which is the model's choice (log 5). -/
def Obligations.PortRefusesOtherOffsets : Prop :=
  ∀ (s : State) (off : Nat) (v : Word) (rest : List Txn), (off % 4 ≠ 0 ∨ off > 0xFC) →
    (s.port = .write off v :: rest → step s = .refused (.portAccess off)) ∧
    (s.port = .read off :: rest → step s = .refused (.portAccess off))

/-- R21, R70: running the step as many times as the host has transactions performs exactly those, in issue order: the
effect of each is visible to the next and nothing else happens. The queue is the model's form of the host (log 1). -/
def Obligations.RunPerformsTransactionsInOrder : Prop :=
  ∀ (ts : List Txn) (s : State),
    Host.Core.run core ts.length { s with port := ts } = performAll ts { s with port := [] }

/-- R22: with no port transaction, no state changes. An empty queue is the model's form of this (log 1). -/
def Obligations.IdleBlockDoesNothing : Prop := ∀ s : State, s.port = [] → step s = .next s

/-- R26: the fields of STATUS as the host reads them: ERR in bits 3:0, then ERRS, TVALID, HSEL, MINNEG, and bits 31:8
zero. -/
def Obligations.StatusWordLayout : Prop :=
  ∀ s : State, (statusWord s).toNat = s.err.toNat + 16 * s.errs.toNat + 32 * s.tvalid.toNat +
    64 * (if s.hsel = .mur then 1 else 0) + 128 * (if s.digest = 0x80000000#32 then 1 else 0)

/-! ## Reset (70_reset_and_hazards.md) -/

/-- R240: after the reset event every piece of state has its reset value (the bytes of KEYBUF, which are unspecified and
unobservable, are left out), and the reset state is such a state. That the parameters and the host's two lists are kept
is the model's choice (logs 3 and 8). -/
def Obligations.ResetGivesTheResetValues : Prop :=
  (∀ s : State, ∃ t, perform .reset s = .next t ∧ ResetValues t ∧ t.cfg = s.cfg ∧ t.port = s.port ∧
    t.returned = s.returned ∧ currentKey t = some [] ∧ hostRead 0x34 t = 0x4E434846) ∧
  ResetValues State.reset

/-- R241, R102: reset and the CLR_ERR command are the only events that clear ERRS. -/
def Obligations.OnlyResetAndClrErrClearErrs : Prop :=
  ∀ (x : Txn) (s t : State), perform x s = .next t → s.errs = true → t.errs = false →
    x = .reset ∨ x = .write 0x00 0x00000001

/-! ## Invariants (10_state.md R35, R40) -/

/-- R35, R40, R240: in every configuration that meets R6 the reset state meets the invariant. The clauses on the form of
the stores are the model's choice (logs 4 and 6). -/
def Obligations.ResetMeetsTheInvariant : Prop :=
  Inv State.reset ∧ ∀ cfg : Config, cfg.wf = true → Inv (State.resetWith cfg)

/-- R35, R40 and the ranges of R26 to R37: every step keeps the invariant, from every state that meets it. The clauses on
the form of the stores, and on which KEYBUF bytes have a value, are the model's choice (logs 4 and 6). -/
def Obligations.EveryStepKeepsTheInvariant : Prop :=
  ∀ s t : State, Inv s → step s = .next t → Inv t

/-- R61, R211: from every state that meets the invariant every command answers a next state, and no step faults: an
access outside the domain of MemRead and MemWrite cannot occur. The faults themselves are the model's guards (log 7). -/
def Obligations.NoCommandStopsTheBlock : Prop :=
  (∀ (i : Instr) (s : State), Inv s → ∃ t, exec i s = .next t) ∧
  ∀ (s : State) (f : Fault), Inv s → step s ≠ .fault f

/-! ## Control (40_control_and_key.md) -/

/-- R101: NOP does nothing but write ERR. -/
def Obligations.NopOnlyWritesErr : Prop :=
  decode 0x00000000 = .ok .nop ∧ ∀ s : State, exec .nop s = .next { s with err := 0 }

/-- R102: CLR_ERR clears ERRS and ERR and nothing else, and no other command clears ERRS. -/
def Obligations.ClrErrClearsTheFlags : Prop :=
  decode 0x00000001 = .ok .clrErr ∧
  (∀ s : State, exec .clrErr s = .next { s with err := 0, errs := false }) ∧
  ∀ (i : Instr) (s t : State), exec i s = .next t → s.errs = true → t.errs = false → i = .clrErr

/-- R27, R100: no command reads ERR or ERRS: with other flags it answers the same state and the same ERR, and ERRS is 1 if
the command failed, 0 after CLR_ERR, and otherwise as it was. -/
def Obligations.NoCommandReadsTheFlags : Prop :=
  ∀ (i : Instr) (s t : State) (e : BitVec 4) (b : Bool), exec i s = .next t →
    exec i (withFlags e b s) =
      .next (withFlags t.err (if t.err ≠ 0 then true else if i = .clrErr then false else b) t)

/-! ## Key buffer (40_control_and_key.md, 20_memory.md) -/

/-- R103: KEY_CLR sets KEYLEN to 0, so that the key is the empty key, and changes nothing outside the key buffer but
ERR. -/
def Obligations.KeyClrEmptiesTheKey : Prop :=
  decode 0x00000010 = .ok .keyClr ∧
  ∀ s : State, ∃ t, exec .keyClr s = .next t ∧ t = { s with keylen := 0, keybuf := t.keybuf, err := 0 } ∧
    currentKey t = some []

/-- R104: KEY_PUSH stores its byte at position KEYLEN and nowhere else and adds 1 to KEYLEN, or, when the buffer is full,
fails with EKEYOVF (6) and changes nothing but the flags. -/
def Obligations.KeyPushAppendsItsByte : Prop :=
  (∀ b : Byte, decode (0x00000011 + 256 * b.setWidth 32) = .ok (.keyPush b)) ∧
  (∀ (s : State) (b : Byte), s.keylen.toNat < s.cfg.keyMax →
    ∃ t, exec (.keyPush b) s = .next t ∧
      t = { s with keybuf := t.keybuf, keylen := s.keylen + 1, err := 0 } ∧
      Memory.read t.keybuf s.keylen.toNat = some b ∧
      ∀ p, p ≠ s.keylen.toNat → Memory.read t.keybuf p = Memory.read s.keybuf p) ∧
  ∀ (s : State) (b : Byte), s.keylen.toNat = s.cfg.keyMax →
    exec (.keyPush b) s = .next { s with err := 6, errs := true }

/-- R105: KEY_PUSHW stores the four bytes of ARG at KEYLEN to KEYLEN+3, ARG[7:0] first, and nowhere else, and adds 4 to
KEYLEN, and a MemRead of the four bytes gives ARG back; when fewer than four bytes are free it pushes none and fails
with EKEYOVF (6). -/
def Obligations.KeyPushwAppendsFourBytes : Prop :=
  decode 0x00000012 = .ok .keyPushw ∧
  (∀ s : State, s.keylen.toNat + 4 ≤ s.cfg.keyMax →
    ∃ t, exec .keyPushw s = .next t ∧
      t = { s with keybuf := t.keybuf, keylen := s.keylen + 4, err := 0 } ∧
      (∀ j, j < 4 → Memory.read t.keybuf (s.keylen.toNat + j) = some (s.arg.extractLsb' (8 * j) 8)) ∧
      (s.cfg.wf = true → memRead t s.keylen.toNat 4 = some s.arg) ∧
      ∀ p, (p < s.keylen.toNat ∨ s.keylen.toNat + 4 ≤ p) → Memory.read t.keybuf p = Memory.read s.keybuf p) ∧
  ∀ s : State, s.keylen.toNat + 4 > s.cfg.keyMax →
    exec .keyPushw s = .next { s with err := 6, errs := true }

/-- R106: KEY_CLR and one KEY_PUSH per byte, from any state, load the key and change nothing else but ERR; ARG and one
KEY_PUSHW load the same as four KEY_PUSH; of a key longer than KEY_MAX only the first KEY_MAX bytes are loaded, and
the flags say so. -/
def Obligations.KeysAreLoadedByteByByte : Prop :=
  (∀ (s : State) (bs : Key), s.cfg.wf = true → bs.length ≤ s.cfg.keyMax →
    ∃ t, execAll (keyCommands bs) s = .next t ∧ t.keylen.toNat = bs.length ∧ currentKey t = some bs ∧
      t = { s with keylen := t.keylen, keybuf := t.keybuf, err := 0 }) ∧
  (∀ (s : State) (b0 b1 b2 b3 : Byte) (k : Key), s.cfg.wf = true → s.keylen.toNat + 4 ≤ s.cfg.keyMax →
    currentKey s = some k →
    ∃ t u, execAll [.keyPush b0, .keyPush b1, .keyPush b2, .keyPush b3] s = .next t ∧
      performAll [lineArg (b0.setWidth 32 + 2 ^ 8 * b1.setWidth 32 + 2 ^ 16 * b2.setWidth 32 + 2 ^ 24 * b3.setWidth 32),
        lineCmd .keyPushw] s = .next u ∧
      currentKey t = some (k ++ [b0, b1, b2, b3]) ∧ currentKey u = currentKey t) ∧
  ∀ (s : State) (bs : Key), s.cfg.wf = true → s.cfg.keyMax < bs.length →
    ∃ t, execAll (keyCommands bs) s = .next t ∧ currentKey t = some (bs.take s.cfg.keyMax) ∧ t.err = 6 ∧
      t.errs = true

/-- R61, R62: a MemRead after a MemWrite of the same place gives the value written, its low byte for one byte and all
of it for four. -/
def Obligations.MemReadGivesWhatMemWriteWrote : Prop :=
  ∀ (s t : State) (a : Nat) (v : Word),
    (memWrite s a 1 v = some t → a + 1 ≤ s.keylen.toNat → memRead t a 1 = some ((v.setWidth 8).setWidth 32)) ∧
    (memWrite s a 4 v = some t → a + 4 ≤ s.keylen.toNat → memRead t a 4 = some v)

/-- R30: no command reads a byte at a position at or past KEYLEN: with other bytes there it answers the same state, but
for bytes at or past the new KEYLEN. -/
def Obligations.BytesPastKeylenAreUnobservable : Prop :=
  ∀ (i : Instr) (s t : State) (m : List Host.Cell),
    (∀ p, p < s.keylen.toNat → Memory.read m p = Memory.read s.keybuf p) → exec i s = .next t →
    ∃ m', exec i { s with keybuf := m } = .next { t with keybuf := m' } ∧
      ∀ p, p < t.keylen.toNat → Memory.read m' p = Memory.read t.keybuf p

/-! ## Arithmetic (00_scope.md) -/

/-- R11: `abs32(x)` is `x` when bit 31 is 0 and `(2^32 - x) mod 2^32` when it is 1; `0x80000000` is the one input whose
result still has bit 31 set, and maps to itself; `x` and `2^32 - x` give the same result; the corner cases of the
rule. -/
def Obligations.AbsoluteValueRule : Prop :=
  (∀ x : Word, (abs32 x).toNat = if x.getLsbD 31 then (2 ^ 32 - x.toNat) % 2 ^ 32 else x.toNat) ∧
  (∀ x : Word, (abs32 x).getLsbD 31 = true ↔ x = 0x80000000#32) ∧ abs32 0x80000000 = 0x80000000 ∧
  (∀ x : Word, abs32 (0 - x) = abs32 x) ∧
  abs32 0 = 0 ∧ abs32 0x7FFFFFFF = 0x7FFFFFFF ∧ abs32 0x80000001 = 0x7FFFFFFF ∧ abs32 0xFFFFFFFF = 1 ∧
  abs32 0x811C9DC5 = 0x7EE3623B

/-! ## FNV1a Hasher (41_fnv1a.md) -/

/-- R121: FNV_INIT writes the offset basis to FNV_ACC and nothing else but ERR; right after reset it changes nothing. -/
def Obligations.FnvInitSetsTheBasis : Prop :=
  decode 0x00000020 = .ok .fnvInit ∧
  (∀ s : State, exec .fnvInit s = .next { s with fnvAcc := 0x811C9DC5, err := 0 }) ∧
  exec .fnvInit State.reset = .next State.reset

/-- R122: FNV_BYTE XORs the zero-extended byte into the accumulator and then multiplies by the prime, modulo 2^32. -/
def Obligations.FnvByteXorsThenMultiplies : Prop :=
  (∀ b : Byte, decode (0x00000021 + 256 * b.setWidth 32) = .ok (.fnvByte b)) ∧
  ∀ (s : State) (b : Byte), exec (.fnvByte b) s =
    .next { s with fnvAcc := BitVec.ofNat 32 ((s.fnvAcc.toNat ^^^ b.toNat) * 0x01000193), err := 0 }

/-- R123: the multiply stage as shifts and adds; it is a bijection, and so is the XOR stage for a fixed byte; FNV_BYTE
maps distinct accumulators to distinct ones, and its inverse. -/
def Obligations.FnvMultiplyStageFacts : Prop :=
  0x01000193 = 2 ^ 24 + 2 ^ 8 + 2 ^ 7 + 2 ^ 4 + 2 ^ 1 + 2 ^ 0 ∧
  (∀ t : Word, mul32 t 0x01000193 =
    shl32 t 24 + shl32 t 8 + shl32 t 7 + shl32 t 4 + shl32 t 1 + t) ∧
  (Function.Bijective fun t => mul32 t 0x01000193) ∧ (∀ b : Byte, Function.Bijective fun a => xor32 a (zext32 b)) ∧
  (∀ (s t : State) (b : Byte), exec (.fnvByte b) s = .next t →
    s.fnvAcc = xor32 (mul32 t.fnvAcc 0x359C449B) (zext32 b)) ∧
  ∀ (s s' t t' : State) (b : Byte), exec (.fnvByte b) s = .next t → exec (.fnvByte b) s' = .next t' →
    s.fnvAcc ≠ s'.fnvAcc → t.fnvAcc ≠ t'.fnvAcc

/-- R124: FNV_FINAL writes the absolute value of the accumulator to DIGEST and leaves FNV_ACC; twice is once; the edge
case sets MINNEG; right after FNV_INIT or reset it gives the digest of the empty key. -/
def Obligations.FnvFinalGivesTheAbsoluteValue : Prop :=
  decode 0x00000022 = .ok .fnvFinal ∧
  (∀ s : State, exec .fnvFinal s = .next { s with digest := abs32 s.fnvAcc, err := 0 }) ∧
  (∀ s t : State, exec .fnvFinal s = .next t → exec .fnvFinal t = .next t) ∧
  (∀ s t : State, s.fnvAcc = 0x80000000#32 → exec .fnvFinal s = .next t →
    t.digest = 0x80000000#32 ∧ minneg t = true) ∧
  ∀ s : State, ∃ t u, execAll [.fnvInit, .fnvFinal] s = .next t ∧ t.digest = 0x7EE3623B ∧
    exec .fnvFinal (resetBlock s) = .next u ∧ u.digest = 0x7EE3623B

/-- R125: FNV_KEY on the current key ends with `fnv1a_raw(key())` in FNV_ACC and `fnv1a(key())` in DIGEST and changes
nothing else but ERR; its effect is that of FNV_INIT, one FNV_BYTE per byte and FNV_FINAL. -/
def Obligations.FnvKeyHashesTheKey : Prop :=
  decode 0x00000023 = .ok .fnvKey ∧
  ∀ (s : State) (k : Key), currentKey s = some k →
    exec .fnvKey s = .next { s with fnvAcc := fnv1aRaw k, digest := fnv1a k, err := 0 } ∧
    execAll (.fnvInit :: (k.map .fnvByte ++ [.fnvFinal])) s = exec .fnvKey s

/-- R126, R244 (a), R46: a streamed FNV hash goes through any transactions between its bytes that do not write FNV_ACC:
from any state of the invariant, FNV_INIT, then FNV_BYTE commands with any commands, ARG writes and reads between them but
those that write FNV_ACC (FNV_INIT, FNV_KEY, and TBL_ADD, TBL_CONTAINS, TBL_REMOVE when they run on a live FNV table),
then FNV_FINAL, complete with the two values of R126 for the bytes streamed. TBL_ADD, TBL_CONTAINS and TBL_REMOVE on a
Murmur table or without a table are among those allowed. -/
def Obligations.StreamedFnvSurvivesOtherCommands : Prop :=
  ∀ (ts : List Txn) (s : State) (bs : Key), Inv s → (∀ x ∈ ts, x.wf = true) →
    streamed fnvBytes ts { s with fnvAcc := 0x811C9DC5, err := 0 } = some bs →
    ∃ t, performAll (lineCmd .fnvInit :: (ts ++ [lineCmd .fnvFinal])) s = .next t ∧
      t.fnvAcc = fnv1aRaw bs ∧ t.digest = fnv1a bs

/-- R127, R154, R12: under both hashers the digest, read as a signed number, is at least 0, but for raw value
`0x80000000`, when it is -2^31; keys that reach that case exist for both. -/
def Obligations.DigestIsNonNegativeButForTheEdgeCase : Prop :=
  (∀ bs : Key, (fnv1aRaw bs ≠ 0x80000000 → 0 ≤ (fnv1a bs).toInt) ∧
    (fnv1aRaw bs = 0x80000000 → (fnv1a bs).toInt = -2 ^ 31)) ∧
  (∀ bs : Key, (murmurRaw bs ≠ 0x80000000 → 0 ≤ (murmur bs).toInt) ∧
    (murmurRaw bs = 0x80000000 → (murmur bs).toInt = -2 ^ 31)) ∧
  fnv1aRaw [0x3B, 0x4B, 0x24, 0x32, 0x35] = 0x80000000 ∧ murmurRaw [0x66, 0x5F, 0xEA, 0xDD] = 0x80000000

/-! ## Murmur Hasher (42_murmur.md) -/

/-- R142, R144, R146: `mixk`, `fold` for a fixed block word, and `fmix32` are bijections on 32-bit values, and send 0
where the rules say. -/
def Obligations.MurmurStagesAreBijections : Prop :=
  Function.Bijective mixk ∧ (∀ k : Word, Function.Bijective fun h => murFold h k) ∧ Function.Bijective fmix32 ∧
  mixk 0 = 0 ∧ fmix32 0 = 0

/-- R141: MUR_INIT sets the seed, an empty tail and length 0, and nothing else but ERR; right after reset it changes
nothing. -/
def Obligations.MurInitSetsTheSeed : Prop :=
  decode 0x00000030 = .ok .murInit ∧
  (∀ s : State, exec .murInit s = .next { s with murH := 0x00000100, murTail := 0, murLen := 0, err := 0 }) ∧
  exec .murInit State.reset = .next State.reset

/-- R143, R150: MUR_BYTE puts its byte at bit offset `8 (MUR_LEN mod 4)` of the partial block, folds the block when it is
full, and counts the byte; at the greatest length it fails with ELEN (10) and changes nothing but the flags. -/
def Obligations.MurByteAddsItsByte : Prop :=
  (∀ b : Byte, decode (0x00000031 + 256 * b.setWidth 32) = .ok (.murByte b)) ∧
  (∀ (s : State) (b : Byte), s.murLen ≠ 0xFFFFFFFF#32 → s.murLen.toNat % 4 ≠ 3 →
    exec (.murByte b) s = .next { s with
      murTail := s.murTail ||| b.setWidth 32 <<< (8 * (s.murLen.toNat % 4)), murLen := s.murLen + 1, err := 0 }) ∧
  (∀ (s : State) (b : Byte), s.murLen ≠ 0xFFFFFFFF#32 → s.murLen.toNat % 4 = 3 →
    exec (.murByte b) s = .next { s with
      murH := murFold s.murH (s.murTail ||| b.setWidth 32 <<< 24), murTail := 0, murLen := s.murLen + 1, err := 0 }) ∧
  ∀ (s : State) (b : Byte), s.murLen = 0xFFFFFFFF#32 →
    exec (.murByte b) s = .next { s with err := 10, errs := true }

/-- R148, R149, R150: MUR_BLOCK folds ARG and counts four bytes, with the effect of four MUR_BYTE of ARG's bytes; off a
block boundary it fails with ESEQ (9), and past the greatest length with ELEN (10). -/
def Obligations.MurBlockFoldsOneBlock : Prop :=
  decode 0x00000032 = .ok .murBlock ∧
  (∀ s : State, s.murLen.toNat % 4 = 0 → s.murLen.toNat ≤ 0xFFFFFFFB →
    exec .murBlock s = .next { s with murH := murFold s.murH s.arg, murLen := s.murLen + 4, err := 0 }) ∧
  (∀ s : State, MurInv s → s.murLen.toNat % 4 = 0 → s.murLen.toNat ≤ 0xFFFFFFFB →
    s.murTail = 0 ∧
    execAll [.murByte (s.arg.extractLsb' 0 8), .murByte (s.arg.extractLsb' 8 8), .murByte (s.arg.extractLsb' 16 8),
      .murByte (s.arg.extractLsb' 24 8)] s = exec .murBlock s) ∧
  (∀ s : State, s.murLen.toNat % 4 ≠ 0 → exec .murBlock s = .next { s with err := 9, errs := true }) ∧
  ∀ s : State, s.murLen.toNat % 4 = 0 → s.murLen.toNat > 0xFFFFFFFB →
    exec .murBlock s = .next { s with err := 10, errs := true }

/-- R151: MUR_FINAL folds the tail (first stage only) when bytes are pending, folds the length, finalizes, and writes the
absolute value to DIGEST; the three state registers are not changed, so twice is once; the condition has no effect in
a state of R35; the edge case sets MINNEG; right after MUR_INIT or reset it gives the digest of the empty key. -/
def Obligations.MurFinalGivesTheDigest : Prop :=
  decode 0x00000033 = .ok .murFinal ∧
  (∀ s : State, exec .murFinal s = .next { s with
    digest := abs32 (fmix32 ((if s.murLen.toNat % 4 > 0 then s.murH ^^^ mixk s.murTail else s.murH) ^^^ s.murLen))
    err := 0 }) ∧
  (∀ s t : State, exec .murFinal s = .next t → exec .murFinal t = .next t) ∧
  (∀ s t : State, MurInv s → exec .murFinal s = .next t →
    t.digest = abs32 (fmix32 ((s.murH ^^^ mixk s.murTail) ^^^ s.murLen))) ∧
  (∀ s t : State, murRawOf s.murH s.murTail s.murLen = 0x80000000#32 → exec .murFinal s = .next t →
    t.digest = 0x80000000#32 ∧ minneg t = true) ∧
  ∀ s : State, ∃ t u, execAll [.murInit, .murFinal] s = .next t ∧ t.digest = 0x4570315F ∧
    exec .murFinal (resetBlock s) = .next u ∧ u.digest = 0x4570315F

/-- R152: MUR_KEY on the current key ends with `h_q`, the tail, the length and `murmur(key())`, the function of R153, and
changes nothing else but ERR; its effect is that of MUR_INIT, one MUR_BYTE per byte and MUR_FINAL. -/
def Obligations.MurKeyHashesTheKey : Prop :=
  decode 0x00000034 = .ok .murKey ∧
  ∀ (s : State) (k : Key), currentKey s = some k →
    exec .murKey s = .next { s with
      murH := murHashOf k, murTail := murTailOf k, murLen := s.keylen, digest := murmur k, err := 0 } ∧
    execAll (.murInit :: (k.map .murByte ++ [.murFinal])) s = exec .murKey s

/-- R153, R140, R46: streaming any bytes, up to 2^32 - 1 of them, through MUR_INIT, MUR_BYTE and MUR_FINAL ends with the
four values of R153, whatever the key buffer holds, and changes nothing else but ERR. From any state of the invariant it
also does so with four bytes at a multiple-of-4 offset streamed by one MUR_BLOCK with ARG their little-endian word, and
with any commands, ARG writes and reads between that do not write the Murmur registers (MUR_INIT, MUR_KEY, and TBL_ADD,
TBL_CONTAINS, TBL_REMOVE when they run on a live Murmur table, are those that do). -/
def Obligations.StreamedMurmurIsMurmur : Prop :=
  (∀ (s : State) (bs : Key), bs.length ≤ 2 ^ 32 - 1 →
    execAll (.murInit :: (bs.map .murByte ++ [.murFinal])) s = .next { s with
      murH := murHashOf bs, murTail := murTailOf bs, murLen := BitVec.ofNat 32 bs.length, digest := murmur bs
      err := 0 }) ∧
  ∀ (ts : List Txn) (s : State) (bs : Key), Inv s → (∀ x ∈ ts, x.wf = true) →
    streamed murBytes ts { s with murH := 0x00000100, murTail := 0, murLen := 0, err := 0 } = some bs →
    bs.length ≤ 2 ^ 32 - 1 →
    ∃ t, performAll (lineCmd .murInit :: (ts ++ [lineCmd .murFinal])) s = .next t ∧
      t.murH = murHashOf bs ∧ t.murTail = murTailOf bs ∧ t.murLen = BitVec.ofNat 32 bs.length ∧ t.digest = murmur bs

/-- R154: a key and the same key with zero bytes after it, with the same number of full blocks, have the same `h_q` and
tail and different raw values. -/
def Obligations.TrailingZeroBytesChangeTheRawHash : Prop :=
  ∀ (bs : Key) (n : Nat), 0 < n → (bs.length + n) / 4 = bs.length / 4 → bs.length + n ≤ 2 ^ 32 - 1 →
    murHashOf (bs ++ List.replicate n 0) = murHashOf bs ∧ murTailOf (bs ++ List.replicate n 0) = murTailOf bs ∧
    murmurRaw (bs ++ List.replicate n 0) ≠ murmurRaw bs

/-! ## Chained Hash Table (43_table.md) -/

/-- R172, R173, R174: TBL_INIT creates an empty table of ARG buckets with the hasher selected; on a live table it fails
with EBUSY (5), and otherwise with ECFG (3) for a count of 0 or above MAX_BUCKETS, changing nothing but the flags. -/
def Obligations.TblInitCreatesAnEmptyTable : Prop :=
  decode 0x00000040 = .ok (.tblInit .fnv) ∧ decode 0x00000140 = .ok (.tblInit .mur) ∧
  (∀ (s : State) (sel : Hasher), s.tvalid = false → 1 ≤ s.arg.toNat → s.arg.toNat ≤ s.cfg.maxBuckets →
    ∃ t, exec (.tblInit sel) s = .next t ∧
      t = { s with tvalid := true, hsel := sel, buckets := s.arg, size := 0, chains := t.chains, err := 0 } ∧
      ∀ i, chainOf t.chains i = []) ∧
  (∀ (s : State) (sel : Hasher), s.tvalid = true →
    exec (.tblInit sel) s = .next { s with err := 5, errs := true }) ∧
  ∀ (s : State) (sel : Hasher), s.tvalid = false → (s.arg = 0 ∨ s.arg.toNat > s.cfg.maxBuckets) →
    exec (.tblInit sel) s = .next { s with err := 3, errs := true }

/-- R175: TBL_DISCARD drops the table: TVALID, HSEL, BUCKETS, SIZE are 0 and no chain is left; nothing else changes but
ERR. -/
def Obligations.TblDiscardDropsTheTable : Prop :=
  decode 0x00000041 = .ok .tblDiscard ∧
  (∀ s : State, s.tvalid = true → ∃ t, exec .tblDiscard s = .next t ∧
    t = { s with tvalid := false, hsel := .fnv, buckets := 0, size := 0, chains := t.chains, err := 0 } ∧
    ∀ i, chainOf t.chains i = []) ∧
  ∀ s : State, s.tvalid = false → exec .tblDiscard s = .next { s with err := 4, errs := true }

/-- R178, R179: TBL_ADD hashes the key with the table's hasher, appends a copy of it to the chain of its bucket, and adds
1 to SIZE; no other chain and no other state changes. With MAX_ENTRIES entries it fails with EFULL (7) and hashes and
stores nothing. -/
def Obligations.TblAddAppendsTheKey : Prop :=
  decode 0x00000042 = .ok .tblAdd ∧
  (∀ (s : State) (k : Key), s.tvalid = true → chainsWf s.chains = true → s.size.toNat ≠ s.cfg.maxEntries →
    currentKey s = some k →
    ∃ t, exec .tblAdd s = .next t ∧
      t = { lookedUp k s with chains := t.chains, size := s.size + 1, err := 0 } ∧
      chainOf t.chains (bucketOf k s) = chainOf s.chains (bucketOf k s) ++ [k] ∧
      ∀ i, i ≠ bucketOf k s → chainOf t.chains i = chainOf s.chains i) ∧
  (∀ s : State, s.tvalid = true → s.size.toNat = s.cfg.maxEntries →
    exec .tblAdd s = .next { s with err := 7, errs := true }) ∧
  ∀ s : State, s.tvalid = false → exec .tblAdd s = .next { s with err := 4, errs := true }

/-- R180: TBL_CONTAINS hashes the key and writes 1 to RESULT when the chain of the key's bucket holds it, else 0; the
table is not changed, and an absent key is no error. -/
def Obligations.TblContainsSearchesOneChain : Prop :=
  decode 0x00000043 = .ok .tblContains ∧
  (∀ (s : State) (k : Key), s.tvalid = true → currentKey s = some k →
    exec .tblContains s = .next { lookedUp k s with
      result := if k ∈ chainOf s.chains (bucketOf k s) then 1 else 0, err := 0 }) ∧
  ∀ s : State, s.tvalid = false → exec .tblContains s = .next { s with err := 4, errs := true }

/-- R186, R187: TBL_REMOVE deletes the first entry equal to the key from the chain of its bucket, the others keeping
their order, takes 1 from SIZE and writes 1 to RESULT; when there is none it fails with ENOTFOUND (2), leaves the table
as it was, and keeps the lookup's writes and `RESULT = 0`. -/
def Obligations.TblRemoveDeletesTheFirstMatch : Prop :=
  decode 0x00000044 = .ok .tblRemove ∧
  (∀ (s : State) (k : Key), s.tvalid = true → chainsWf s.chains = true → currentKey s = some k →
    k ∈ chainOf s.chains (bucketOf k s) →
    ∃ t, exec .tblRemove s = .next t ∧
      t = { lookedUp k s with chains := t.chains, size := s.size - 1, result := 1, err := 0 } ∧
      chainOf t.chains (bucketOf k s) = (chainOf s.chains (bucketOf k s)).erase k ∧
      ∀ i, i ≠ bucketOf k s → chainOf t.chains i = chainOf s.chains i) ∧
  (∀ (s : State) (k : Key), s.tvalid = true → currentKey s = some k → k ∉ chainOf s.chains (bucketOf k s) →
    exec .tblRemove s = .next { lookedUp k s with result := 0, err := 2, errs := true }) ∧
  ∀ s : State, s.tvalid = false → exec .tblRemove s = .next { s with err := 4, errs := true }

/-- R190: TBL_DIST writes the length of the chain ARG names to RESULT; past the last bucket it fails with ERANGE (8) and
changes nothing but the flags. -/
def Obligations.TblDistGivesAChainLength : Prop :=
  decode 0x00000045 = .ok .tblDist ∧
  (∀ s : State, Inv s → s.tvalid = true → s.arg.toNat < s.buckets.toNat →
    ∃ t, exec .tblDist s = .next t ∧ t = { s with result := t.result, err := 0 } ∧
      t.result.toNat = (chainOf s.chains s.arg.toNat).length) ∧
  (∀ s : State, s.tvalid = true → s.buckets.toNat ≤ s.arg.toNat →
    exec .tblDist s = .next { s with err := 8, errs := true }) ∧
  ∀ s : State, s.tvalid = false → exec .tblDist s = .next { s with err := 4, errs := true }

/-- R192: TBL_COLL writes the sum over the buckets of `max(0, len - 1)` to RESULT, at most SIZE - 1 when the table is not
empty, and nothing else but ERR. -/
def Obligations.TblCollSumsTheCollisions : Prop :=
  decode 0x00000046 = .ok .tblColl ∧
  (∀ s : State, Inv s → s.tvalid = true →
    ∃ t, exec .tblColl s = .next t ∧ t = { s with result := t.result, err := 0 } ∧
      t.result.toNat = ((List.range s.buckets.toNat).map fun i => (chainOf s.chains i).length - 1).sum ∧
      (1 ≤ s.size.toNat → t.result.toNat ≤ s.size.toNat - 1)) ∧
  ∀ s : State, s.tvalid = false → exec .tblColl s = .next { s with err := 4, errs := true }

/-- R194: TBL_SIZE writes SIZE to RESULT, and nothing else but ERR; SIZE is also readable at offset 0x30, and reads 0
there when no table exists. -/
def Obligations.TblSizeGivesTheSize : Prop :=
  decode 0x00000047 = .ok .tblSize ∧
  (∀ s : State, s.tvalid = true → exec .tblSize s = .next { s with result := s.size, err := 0 }) ∧
  (∀ s : State, hostRead 0x30 s = s.size ∧ (Inv s → s.tvalid = false → hostRead 0x30 s = 0)) ∧
  ∀ s : State, s.tvalid = false → exec .tblSize s = .next { s with err := 4, errs := true }

/-- R176: after a command that hashes the key, IDX is DIGEST modulo BUCKETS, unsigned, and is a bucket of the table; for
the digest `0x80000000` it is `2^31 mod BUCKETS`, and MINNEG is 1. -/
def Obligations.BucketIndexIsInRange : Prop :=
  ∀ (i : Instr) (s t : State), hashesTheKey i = true → s.tvalid = true → s.buckets ≠ 0 →
    (i = .tblAdd → s.size.toNat ≠ s.cfg.maxEntries) → exec i s = .next t →
    t.idx.toNat = t.digest.toNat % s.buckets.toNat ∧ t.idx.toNat < s.buckets.toNat ∧
    (t.digest = 0x80000000#32 → t.idx.toNat = 2 ^ 31 % s.buckets.toNat ∧ minneg t = true)

/-- R193 (a), (b), (c): the collision count is SIZE minus the number of occupied buckets; a successful TBL_ADD raises it
by 1 exactly when the chain was not empty; a successful TBL_REMOVE lowers it by 1 exactly when the chain had two or
more entries. -/
def Obligations.CollisionCountLaws : Prop :=
  (∀ s : State, Inv s → collisionCount s.chains s.buckets.toNat + occupiedCount s.chains s.buckets.toNat =
    s.size.toNat) ∧
  (∀ (s t : State) (k : Key), Inv s → currentKey s = some k → exec .tblAdd s = .next t → t.err = 0 →
    collisionCount t.chains t.buckets.toNat = collisionCount s.chains s.buckets.toNat +
      if chainOf s.chains (bucketOf k s) = [] then 0 else 1) ∧
  ∀ (s t : State) (k : Key), Inv s → currentKey s = some k → exec .tblRemove s = .next t → t.err = 0 →
    collisionCount s.chains s.buckets.toNat = collisionCount t.chains t.buckets.toNat +
      if 2 ≤ (chainOf s.chains (bucketOf k s)).length then 1 else 0

/-- R193 (d): adding `n >= 1` keys that all select one bucket to an empty table completes and gives collision count
`n - 1`. -/
def Obligations.OneBucketCollisions : Prop :=
  ∀ (s : State) (ks : List Key) (b : Nat), Inv s → s.tvalid = true → s.size = 0 → ks ≠ [] →
    ks.length ≤ s.cfg.maxEntries → (∀ k ∈ ks, k.length ≤ s.cfg.keyMax ∧ bucketOf k s = b) →
    ∃ t, execAll (ks.flatMap fun k => keyCommands k ++ [.tblAdd]) s = .next t ∧ t.err = 0 ∧
      chainOf t.chains b = ks ∧ collisionCount t.chains t.buckets.toNat = ks.length - 1

/-- R191: GETDIST, one `ARG = i; TBL_DIST; rd RESULT` for each bucket in order, returns the chain lengths in order; their
sum is SIZE, and the table is not changed. The list of returned values is the model's own (log 2). -/
def Obligations.DistributionSumsToSize : Prop :=
  ∀ s : State, Inv s → s.tvalid = true →
    ∃ t, performAll (expand (.getdist s.buckets.toNat)) s = .next t ∧ SameTable s t ∧
      t.returned = s.returned ++
        (List.range s.buckets.toNat).map (fun i => BitVec.ofNat 32 (chainOf s.chains i).length) ∧
      ((List.range s.buckets.toNat).map fun i => (chainOf s.chains i).length).sum = s.size.toNat

/-- R196: no command but TBL_DISCARD changes the bucket count or the hasher of a live table, and no command moves an entry
between chains: a successful TBL_ADD appends the current key to the chain of its bucket, a successful TBL_REMOVE takes
the first copy of the current key out of the chain of its bucket, each with every other chain as before, and every other
command, and a failing one, leaves all chains. -/
def Obligations.LiveTableIsNeverRehashed : Prop :=
  ∀ (i : Instr) (s t : State), s.tvalid = true → chainsWf s.chains = true → i ≠ .tblDiscard → exec i s = .next t →
    t.tvalid = true ∧ t.buckets = s.buckets ∧ t.hsel = s.hsel ∧
    ((i ≠ .tblAdd ∧ i ≠ .tblRemove ∨ t.err ≠ 0) → t.chains = s.chains) ∧
    (i = .tblAdd → t.err = 0 → ∃ k, currentKey s = some k ∧
      chainOf t.chains (bucketOf k s) = chainOf s.chains (bucketOf k s) ++ [k] ∧
      ∀ b, b ≠ bucketOf k s → chainOf t.chains b = chainOf s.chains b) ∧
    (i = .tblRemove → t.err = 0 → ∃ k, currentKey s = some k ∧ k ∈ chainOf s.chains (bucketOf k s) ∧
      chainOf t.chains (bucketOf k s) = (chainOf s.chains (bucketOf k s)).erase k ∧
      ∀ b, b ≠ bucketOf k s → chainOf t.chains b = chainOf s.chains b)

/-- R195 (e): the copies of each key: a successful TBL_ADD of `k` adds one copy of `k`, a successful TBL_REMOVE of `k`
takes one, the copies of every other key stay, and TBL_CONTAINS gives 1 exactly while there is a copy. -/
def Obligations.CopiesOfAKeyAreCounted : Prop :=
  (∀ (s t : State) (k k' : Key), Inv s → currentKey s = some k → exec .tblAdd s = .next t → t.err = 0 →
    copiesOf k' t = copiesOf k' s + if k' = k then 1 else 0) ∧
  (∀ (s t : State) (k k' : Key), Inv s → currentKey s = some k → exec .tblRemove s = .next t → t.err = 0 →
    copiesOf k' s = copiesOf k' t + if k' = k then 1 else 0) ∧
  ∀ (s t : State) (k : Key), currentKey s = some k → s.tvalid = true → exec .tblContains s = .next t →
    t.result = if 0 < copiesOf k s then 1 else 0

/-! ## Errors (60_exceptions.md) -/

/-- R210: which commands report which code, and the cause of each; codes 11 to 15 and EILL are never a command's, and the
commands the rule lists never fail. -/
def Obligations.ErrorCodesHaveTheirCauses : Prop :=
  ∀ (i : Instr) (s t : State), exec i s = .next t →
    t.err.toNat ≤ 10 ∧ t.err ≠ 1 ∧ (neverFails i = true → t.err = 0) ∧
    (t.err = 2 → i = .tblRemove ∧ ∃ k, currentKey s = some k ∧ k ∉ chainOf s.chains (bucketOf k s)) ∧
    (t.err = 3 → (∃ sel, i = .tblInit sel) ∧ (s.arg = 0 ∨ s.cfg.maxBuckets < s.arg.toNat)) ∧
    (t.err = 4 → needsTable i = true ∧ s.tvalid = false) ∧
    (t.err = 5 → (∃ sel, i = .tblInit sel) ∧ s.tvalid = true) ∧
    (t.err = 6 → ((∃ b, i = .keyPush b) ∧ s.keylen.toNat = s.cfg.keyMax) ∨
      (i = .keyPushw ∧ s.cfg.keyMax < s.keylen.toNat + 4)) ∧
    (t.err = 7 → i = .tblAdd ∧ s.size.toNat = s.cfg.maxEntries) ∧
    (t.err = 8 → i = .tblDist ∧ s.buckets.toNat ≤ s.arg.toNat) ∧
    (t.err = 9 → i = .murBlock ∧ s.murLen.toNat % 4 ≠ 0) ∧
    (t.err = 10 → ((∃ b, i = .murByte b) ∧ s.murLen.toNat + 1 > 2 ^ 32 - 1) ∨
      (i = .murBlock ∧ s.murLen.toNat + 4 > 2 ^ 32 - 1))

/-- R212, R213: a failed command never changes the key buffer or the table, and one that fails with any code but
ENOTFOUND (2) changes nothing but ERR and ERRS; TBL_REMOVE with ENOTFOUND keeps only the lookup's writes and
`RESULT <- 0`. -/
def Obligations.FailedCommandsChangeNoTable : Prop :=
  ∀ (i : Instr) (s t : State), exec i s = .next t → t.err ≠ 0 →
    SameKey s t ∧ SameTable s t ∧ t.errs = true ∧
    (t.err ≠ 2 → t = { s with err := t.err, errs := true }) ∧
    (t.err = 2 → i = .tblRemove ∧ ∃ k, currentKey s = some k ∧ t = { lookedUp k s with result := 0, err := 2, errs := true })

/-- R214: of several failure conditions the first of the rule's order is reported. -/
def Obligations.FirstFailingCheckIsReported : Prop :=
  (∀ (w : Word) (e : DecodeError) (s : State), decode w = .error e →
    ∃ t, execute w s = .next t ∧ t.err = 1) ∧
  (∀ (s : State) (sel : Hasher), s.tvalid = true → (s.arg = 0 ∨ s.cfg.maxBuckets < s.arg.toNat) →
    ∃ t, exec (.tblInit sel) s = .next t ∧ t.err = 5) ∧
  (∀ s : State, s.tvalid = false → s.size.toNat = s.cfg.maxEntries → ∃ t, exec .tblAdd s = .next t ∧ t.err = 4) ∧
  (∀ (s : State) (k : Key), s.tvalid = false → currentKey s = some k → k ∉ chainOf s.chains (bucketOf k s) →
    ∃ t, exec .tblRemove s = .next t ∧ t.err = 4) ∧
  (∀ s : State, s.tvalid = false → s.buckets.toNat ≤ s.arg.toNat → ∃ t, exec .tblDist s = .next t ∧ t.err = 4) ∧
  ∀ s : State, s.murLen.toNat % 4 ≠ 0 → s.murLen.toNat > 0xFFFFFFFB → ∃ t, exec .murBlock s = .next t ∧ t.err = 9

/-- R223: a failing command issued again fails again with the same code and changes nothing more. -/
def Obligations.FailuresRepeat : Prop :=
  ∀ (i : Instr) (s t : State), exec i s = .next t → t.err ≠ 0 → exec i t = .next t

/-- R46, R24, R25, R28, R29: what each command leaves: every register, the key buffer, the other core's registers and the
table, for every command that the matrix of R46 does not mark as a writer; no command writes ARG, the parameters, or
the host's side. -/
def Obligations.CommandsWriteOnlyTheirState : Prop :=
  ∀ (i : Instr) (s t : State), exec i s = .next t →
    t.arg = s.arg ∧ t.cfg = s.cfg ∧ t.port = s.port ∧ t.returned = s.returned ∧
    (i ∉ [Instr.tblContains, .tblRemove, .tblDist, .tblColl, .tblSize] → t.result = s.result) ∧
    (i ∉ [Instr.fnvFinal, .fnvKey, .murFinal, .murKey, .tblAdd, .tblContains, .tblRemove] → t.digest = s.digest) ∧
    (hashesTheKey i = false → t.idx = s.idx) ∧
    (i ≠ .keyClr → i ≠ .keyPushw → (∀ b, i ≠ .keyPush b) → SameKey s t) ∧
    (i ≠ .fnvInit → i ≠ .fnvKey → (∀ b, i ≠ .fnvByte b) → (hashesTheKey i = true → s.hsel = .mur) →
      t.fnvAcc = s.fnvAcc) ∧
    (i ∉ [Instr.murInit, .murBlock, .murKey] → (∀ b, i ≠ .murByte b) → (hashesTheKey i = true → s.hsel = .fnv) →
      t.murH = s.murH ∧ t.murTail = s.murTail ∧ t.murLen = s.murLen) ∧
    (i ≠ .tblDiscard → (∀ sel, i ≠ .tblInit sel) →
      t.tvalid = s.tvalid ∧ t.hsel = s.hsel ∧ t.buckets = s.buckets ∧
      (i ≠ .tblAdd → i ≠ .tblRemove → t.size = s.size ∧ t.chains = s.chains))
end

