-- ==== Sys2Proof/Laws/Decode.lean ====
section
/-! SUPPORT. The fields of a command word as numbers (30_encoding.md R81), and the byte layout of a word (R62 (b)). -/

namespace Sys2Proof

theorem opcodeField_toNat (w : Word) : (opcodeField w).toNat = w.toNat % 256 := by simp [opcodeField]

theorem opcodeField_eq_iff {w : Word} {c : Byte} : opcodeField w = c ↔ w.toNat % 256 = c.toNat := by
  rw [← BitVec.toNat_inj, opcodeField_toNat]

theorem imm8Field_toNat (w : Word) : (imm8Field w).toNat = w.toNat / 256 % 256 := by
  simp [imm8Field, Nat.shiftRight_eq_div_pow]

theorem upperNA_eq_zero_iff {w : Word} : upperNA w = 0 ↔ w.toNat / 2 ^ 8 = 0 := by
  rw [← BitVec.toNat_inj]
  simp [upperNA, Nat.shiftRight_eq_div_pow]
  have := w.isLt
  omega

theorem upperB_eq_zero_iff {w : Word} : upperB w = 0 ↔ w.toNat / 2 ^ 16 = 0 := by
  rw [← BitVec.toNat_inj]
  simp [upperB, Nat.shiftRight_eq_div_pow]
  have := w.isLt
  omega

theorem upperS_eq_zero_iff {w : Word} : upperS w = 0 ↔ w.toNat / 2 ^ 9 = 0 := by
  rw [← BitVec.toNat_inj]
  simp [upperS, Nat.shiftRight_eq_div_pow]
  have := w.isLt
  omega

theorem encodeNA_toNat (op : Byte) : (encodeNA op).toNat = op.toNat := by
  have := op.isLt
  simp only [encodeNA, BitVec.toNat_setWidth]
  omega

theorem encodeB_toNat (op imm8 : Byte) : (encodeB op imm8).toNat = op.toNat + 256 * imm8.toNat := by
  have := op.isLt
  have := imm8.isLt
  simp [encodeB]
  omega

/-- The bytes of a word, put together again, are the word (R62 (b)). -/
theorem wordOfBytes_bytes (w : Word) : wordOfBytes (w.extractLsb' 0 8) (w.extractLsb' 8 8) (w.extractLsb' 16 8)
    (w.extractLsb' 24 8) = w := by
  apply BitVec.eq_of_toNat_eq
  simp only [wordOfBytes, BitVec.toNat_append, BitVec.extractLsb'_toNat, Nat.shiftRight_eq_div_pow]
  have := w.isLt
  rw [← Nat.shiftLeft_add_eq_or_of_lt (by omega), ← Nat.shiftLeft_add_eq_or_of_lt (by omega),
    ← Nat.shiftLeft_add_eq_or_of_lt (by omega)]
  simp only [Nat.shiftLeft_eq]
  omega

/-- Decoding a word's bytes is decoding the word. -/
theorem decodeBytes_bytesOfWord (w : Word) : decodeBytes (bytesOfWord w) = some (decode w) := by
  simp only [decodeBytes, bytesOfWord, wordOfBytes_bytes]

/-- The decoder of table words is the decoder of words. -/
theorem decodeTableWord_toNat (w : Word) : decodeTableWord 32 w.toNat = (decode w).toOption := by
  simp only [decodeTableWord, BitVec.ofNat_toNat, BitVec.setWidth_eq, decodeBytes_bytesOfWord]
  have := w.isLt
  simp only [le_refl, decide_true, Bool.true_and, this, if_true]
  cases decode w <;> rfl

end Sys2Proof
end

