-- ==== Sys2Proof/Laws/Memory.lean ====
section
/-! SUPPORT. The sparse stores: reading after writing, and the canonical form, which every operation keeps. -/

namespace Sys2Proof.Machine

variable {α : Type}

/-! ### Sparse stores -/

theorem cellsGet_put_same (m : List (Nat × α)) (a : Nat) (x : α) : cellsGet (cellsPut m a x) a = some x := by
  induction m with
  | nil => simp [cellsPut, cellsGet]
  | cons e rest ih =>
    obtain ⟨p, y⟩ := e
    simp only [cellsPut]
    split
    · simp [cellsGet]
    · split
      · simp [cellsGet]
      · rename_i h
        simp [cellsGet, Ne.symm h, ih]

theorem cellsGet_put_other (m : List (Nat × α)) {a b : Nat} (x : α) (h : b ≠ a) :
    cellsGet (cellsPut m a x) b = cellsGet m b := by
  induction m with
  | nil => simp [cellsPut, cellsGet, Ne.symm h]
  | cons e rest ih =>
    obtain ⟨p, y⟩ := e
    simp only [cellsPut]
    split
    · simp [cellsGet, Ne.symm h]
    · split
      · rename_i _ hap
        subst hap
        simp [cellsGet, Ne.symm h]
      · simp [cellsGet, ih]

/-- The canonical form in terms of the order of all keys. -/
theorem cellsRising_iff (m : List (Nat × α)) : cellsRising m = true ↔ (m.map Prod.fst).Pairwise (· < ·) := by
  induction m with
  | nil => simp [cellsRising]
  | cons e rest ih =>
    obtain ⟨p, y⟩ := e
    cases rest with
    | nil => simp [cellsRising]
    | cons f rest =>
      obtain ⟨q, z⟩ := f
      simp only [cellsRising, Bool.and_eq_true, decide_eq_true_eq, ih]
      constructor
      · rintro ⟨hpq, hr⟩
        refine List.pairwise_cons.2 ⟨?_, hr⟩
        intro r hrm
        rcases List.mem_cons.1 hrm with h | h
        · exact h ▸ hpq
        · exact lt_trans hpq ((List.pairwise_cons.1 hr).1 r h)
      · intro h
        exact ⟨(List.pairwise_cons.1 h).1 q (by simp), (List.pairwise_cons.1 h).2⟩

theorem cellsRising_cons {p : Nat} {y : α} {rest : List (Nat × α)} :
    cellsRising ((p, y) :: rest) = true ↔ (∀ e ∈ rest, p < e.1) ∧ cellsRising rest = true := by
  rw [cellsRising_iff, cellsRising_iff]
  simp

theorem mem_cellsPut {m : List (Nat × α)} {a : Nat} {x : α} {e : Nat × α} (h : e ∈ cellsPut m a x) :
    e = (a, x) ∨ e ∈ m := by
  induction m with
  | nil => simpa [cellsPut] using h
  | cons f rest ih =>
    obtain ⟨p, y⟩ := f
    simp only [cellsPut] at h
    split at h
    · simpa using h
    · split at h
      · rcases List.mem_cons.1 h with h | h
        · exact .inl h
        · exact .inr (List.mem_cons_of_mem _ h)
      · rcases List.mem_cons.1 h with h | h
        · exact .inr (h ▸ List.mem_cons_self ..)
        · exact (ih h).imp id (List.mem_cons_of_mem _)

theorem mem_cellsErase {m : List (Nat × α)} {a : Nat} {e : Nat × α} (h : e ∈ cellsErase m a) : e ∈ m := by
  induction m with
  | nil => simp [cellsErase] at h
  | cons f rest ih =>
    obtain ⟨p, y⟩ := f
    simp only [cellsErase] at h
    split at h
    · exact List.mem_cons_of_mem _ h
    · rcases List.mem_cons.1 h with h | h
      · exact h ▸ List.mem_cons_self ..
      · exact List.mem_cons_of_mem _ (ih h)

/-- Writing keeps the canonical form. -/
theorem cellsRising_put {m : List (Nat × α)} (a : Nat) (x : α) (h : cellsRising m = true) :
    cellsRising (cellsPut m a x) = true := by
  induction m with
  | nil => rfl
  | cons f rest ih =>
    obtain ⟨p, y⟩ := f
    obtain ⟨hlt, hr⟩ := cellsRising_cons.1 h
    simp only [cellsPut]
    split
    · rename_i hap
      refine cellsRising_cons.2 ⟨?_, h⟩
      intro e he
      rcases List.mem_cons.1 he with he | he
      · exact he ▸ hap
      · exact lt_trans hap (hlt e he)
    · split
      · rename_i _ hap
        exact cellsRising_cons.2 ⟨fun e he => hap ▸ hlt e he, hr⟩
      · refine cellsRising_cons.2 ⟨?_, ih hr⟩
        intro e he
        rcases mem_cellsPut he with he | he
        · subst he; simp only; omega
        · exact hlt e he

/-- Erasing keeps the canonical form. -/
theorem cellsRising_erase {m : List (Nat × α)} (a : Nat) (h : cellsRising m = true) :
    cellsRising (cellsErase m a) = true := by
  induction m with
  | nil => rfl
  | cons f rest ih =>
    obtain ⟨p, y⟩ := f
    obtain ⟨hlt, hr⟩ := cellsRising_cons.1 h
    simp only [cellsErase]
    split
    · exact hr
    · exact cellsRising_cons.2 ⟨fun e he => hlt e (mem_cellsErase he), ih hr⟩

theorem cellsGet_none_of_forall_ne {m : List (Nat × α)} {a : Nat} (h : ∀ e ∈ m, e.1 ≠ a) : cellsGet m a = none := by
  induction m with
  | nil => rfl
  | cons f rest ih =>
    obtain ⟨p, y⟩ := f
    simp [cellsGet, h (p, y) (by simp), ih fun e he => h e (List.mem_cons_of_mem _ he)]

theorem cellsGet_erase_same {m : List (Nat × α)} (a : Nat) (h : cellsRising m = true) :
    cellsGet (cellsErase m a) a = none := by
  induction m with
  | nil => rfl
  | cons f rest ih =>
    obtain ⟨p, y⟩ := f
    obtain ⟨hlt, hr⟩ := cellsRising_cons.1 h
    simp only [cellsErase]
    split
    · rename_i hpa
      exact cellsGet_none_of_forall_ne fun e he => hpa ▸ (hlt e he).ne'
    · rename_i hpa
      simp [cellsGet, hpa, ih hr]

theorem cellsGet_erase_other {m : List (Nat × α)} {a b : Nat} (hb : b ≠ a) :
    cellsGet (cellsErase m a) b = cellsGet m b := by
  induction m with
  | nil => rfl
  | cons f rest ih =>
    obtain ⟨p, y⟩ := f
    simp only [cellsErase]
    split
    · rename_i hpa
      simp [cellsGet, hpa, Ne.symm hb]
    · simp [cellsGet, ih]

theorem mem_of_cellsGet {m : List (Nat × α)} {a : Nat} {x : α} (h : cellsGet m a = some x) : (a, x) ∈ m := by
  induction m with
  | nil => simp [cellsGet] at h
  | cons f rest ih =>
    obtain ⟨p, y⟩ := f
    simp only [cellsGet] at h
    split at h
    · rename_i hpa
      simp only [Option.some.injEq] at h
      subst hpa; subst h; simp
    · exact List.mem_cons_of_mem _ (ih h)

theorem cellsGet_of_mem {m : List (Nat × α)} {a : Nat} {x : α} (hr : cellsRising m = true) (h : (a, x) ∈ m) :
    cellsGet m a = some x := by
  induction m with
  | nil => simp at h
  | cons f rest ih =>
    obtain ⟨p, y⟩ := f
    obtain ⟨hlt, hr'⟩ := cellsRising_cons.1 hr
    rcases List.mem_cons.1 h with h | h
    · simp only [Prod.mk.injEq] at h
      simp [cellsGet, h.1, h.2]
    · have : p ≠ a := (hlt _ h).ne
      simp [cellsGet, this, ih hr' h]

/-- Canonical stores that read the same everywhere are equal data. -/
theorem cells_ext {m n : List (Nat × α)} (hm : cellsRising m = true) (hn : cellsRising n = true)
    (h : ∀ a, cellsGet m a = cellsGet n a) : m = n := by
  induction m generalizing n with
  | nil =>
    cases n with
    | nil => rfl
    | cons f rest =>
      obtain ⟨p, y⟩ := f
      have := h p
      simp [cellsGet] at this
  | cons f rest ih =>
    obtain ⟨p, y⟩ := f
    obtain ⟨hlt, hr⟩ := cellsRising_cons.1 hm
    cases n with
    | nil =>
      have := h p
      simp [cellsGet] at this
    | cons g rest' =>
      obtain ⟨q, z⟩ := g
      obtain ⟨hlt', hr'⟩ := cellsRising_cons.1 hn
      have hpq : p = q := by
        rcases lt_trichotomy p q with hc | hc | hc
        · have := h p
          rw [cellsGet_none_of_forall_ne (m := (q, z) :: rest') (by
            intro e he
            rcases List.mem_cons.1 he with he | he
            · subst he; exact hc.ne'
            · exact (lt_trans hc (hlt' e he)).ne')] at this
          simp [cellsGet] at this
        · exact hc
        · have := h q
          rw [cellsGet_none_of_forall_ne (m := (p, y) :: rest) (by
            intro e he
            rcases List.mem_cons.1 he with he | he
            · subst he; exact hc.ne'
            · exact (lt_trans hc (hlt e he)).ne')] at this
          simp [cellsGet] at this
      subst hpq
      have hyz : y = z := by simpa [cellsGet] using h p
      subst hyz
      congr 1
      refine ih hr hr' fun a => ?_
      by_cases ha : p = a
      · subst ha
        rw [cellsGet_none_of_forall_ne fun e he => (hlt e he).ne',
          cellsGet_none_of_forall_ne fun e he => (hlt' e he).ne']
      · simpa [cellsGet, ha] using h a

/-! ### The key buffer -/

theorem Memory.read_write_same (m : List Host.Cell) (a : Nat) (b : Byte) :
    Memory.read (Memory.write m a b) a = some b := cellsGet_put_same m a b

theorem Memory.read_write_other (m : List Host.Cell) {a c : Nat} (b : Byte) (h : c ≠ a) :
    Memory.read (Memory.write m a b) c = Memory.read m c := cellsGet_put_other m b h

theorem Memory.wf_write {m : List Host.Cell} (a : Nat) (b : Byte) (h : Memory.wf m = true) :
    Memory.wf (Memory.write m a b) = true := cellsRising_put a b h

theorem Memory.wf_unspecified : Memory.wf Memory.unspecified = true := rfl

theorem writeBytes_wf {m : List Host.Cell} (a : Nat) (v : Word) (n : Nat) (h : Memory.wf m = true) :
    Memory.wf (writeBytes m a v n) = true := by
  induction n with
  | zero => exact h
  | succ n ih => exact Memory.wf_write _ _ ih

/-- The key buffer of the reset state is in the canonical form. -/
theorem reset_keybuf_wf (cfg : Config) : Memory.wf (State.resetWith cfg).keybuf = true := rfl

/-- MemWrite stores byte `j` of the value at position `a + j`. -/
theorem read_writeBytes_in (m : List Host.Cell) (a : Nat) (v : Word) {n j : Nat} (h : j < n) :
    Memory.read (writeBytes m a v n) (a + j) = some (byteOf v j) := by
  induction n with
  | zero => omega
  | succ n ih =>
    by_cases hj : j = n
    · subst hj; exact Memory.read_write_same _ _ _
    · rw [writeBytes, Memory.read_write_other _ _ (by omega)]
      exact ih (by omega)

/-- MemWrite leaves every other position alone. -/
theorem read_writeBytes_out (m : List Host.Cell) (a : Nat) (v : Word) {n p : Nat} (h : p < a ∨ a + n ≤ p) :
    Memory.read (writeBytes m a v n) p = Memory.read m p := by
  induction n with
  | zero => rfl
  | succ n ih =>
    rw [writeBytes, Memory.read_write_other _ _ (by omega)]
    exact ih (by omega)

/-- What MemRead's bytes are: one for each position, each the byte read there. -/
theorem memBytes_eq_some {m : List Host.Cell} {a n : Nat} {bs : List Byte} :
    memBytes m a n = some bs ↔ bs.length = n ∧ ∀ j (h : j < bs.length), Memory.read m (a + j) = some bs[j] := by
  induction n generalizing a bs with
  | zero => cases bs <;> simp [memBytes]
  | succ n ih =>
    constructor
    · intro h
      simp only [memBytes] at h
      split at h
      · rename_i b cs hb hcs
        simp only [Option.some.injEq] at h
        subst h
        obtain ⟨hlen, hread⟩ := ih.1 hcs
        refine ⟨by simp [hlen], ?_⟩
        intro j hj
        cases j with
        | zero => simpa using hb
        | succ j =>
          have := hread j (by simpa using hj)
          simpa [Nat.add_assoc, Nat.add_comm, Nat.add_left_comm] using this
      · cases h
    · rintro ⟨hlen, hread⟩
      cases bs with
      | nil => simp at hlen
      | cons b cs =>
        have hb := hread 0 (by simp)
        have hcs : memBytes m (a + 1) n = some cs := by
          refine ih.2 ⟨by simpa using hlen, fun j hj => ?_⟩
          have := hread (j + 1) (by simpa using hj)
          simpa [Nat.add_assoc, Nat.add_comm, Nat.add_left_comm] using this
        simp only [memBytes, hcs]
        simp only [Nat.add_zero, List.getElem_cons_zero] at hb
        simp [hb]

theorem memBytes_length {m : List Host.Cell} {a n : Nat} {bs : List Byte} (h : memBytes m a n = some bs) :
    bs.length = n := (memBytes_eq_some.1 h).1

/-- Reading depends only on the bytes read. -/
theorem memBytes_congr {m m' : List Host.Cell} {a n : Nat}
    (h : ∀ p, a ≤ p → p < a + n → Memory.read m' p = Memory.read m p) : memBytes m' a n = memBytes m a n := by
  induction n generalizing a with
  | zero => rfl
  | succ n ih =>
    have hrest : memBytes m' (a + 1) n = memBytes m (a + 1) n := ih fun p h1 h2 => h p (by omega) (by omega)
    simp only [memBytes, h a (by omega) (by omega), hrest]

/-- A part of a range that can be read is the part of what is read. -/
theorem memBytes_sub {m : List Host.Cell} {n : Nat} {k : Key} (h : memBytes m 0 n = some k) {a c : Nat}
    (hac : a + c ≤ n) : memBytes m a c = some ((k.drop a).take c) := by
  obtain ⟨hlen, hread⟩ := memBytes_eq_some.1 h
  refine memBytes_eq_some.2 ⟨by simp; omega, ?_⟩
  intro j hj
  simp only [List.length_take, List.length_drop] at hj
  have := hread (a + j) (by omega)
  simpa using this

theorem memBytes_append {m : List Host.Cell} {a n c : Nat} {xs ys : List Byte} (hx : memBytes m a n = some xs)
    (hy : memBytes m (a + n) c = some ys) : memBytes m a (n + c) = some (xs ++ ys) := by
  obtain ⟨hxl, hxr⟩ := memBytes_eq_some.1 hx
  obtain ⟨hyl, hyr⟩ := memBytes_eq_some.1 hy
  refine memBytes_eq_some.2 ⟨by simp [hxl, hyl], ?_⟩
  intro j hj
  by_cases hjn : j < n
  · rw [List.getElem_append_left (by omega)]
    exact hxr j (by omega)
  · rw [List.getElem_append_right (by omega)]
    have := hyr (j - n) (by simp at hj; omega)
    simp only [hxl]
    rwa [show a + n + (j - n) = a + j by omega] at this

/-! ### The chain store -/

theorem chainOf_setChain_same {c : List (Nat × List Key)} (i : Nat) (ks : List Key) (h : chainsWf c = true) :
    chainOf (setChain c i ks) i = ks := by
  simp only [chainsWf, Bool.and_eq_true] at h
  unfold setChain chainOf
  split
  · rename_i hk
    simp [cellsGet_erase_same i h.1, hk]
  · simp [cellsGet_put_same]

theorem chainOf_setChain_other (c : List (Nat × List Key)) {i j : Nat} (ks : List Key) (h : j ≠ i) :
    chainOf (setChain c i ks) j = chainOf c j := by
  unfold setChain chainOf
  split
  · rw [cellsGet_erase_other h]
  · rw [cellsGet_put_other _ _ h]

/-- Setting a chain keeps the canonical form of the chain store. -/
theorem chainsWf_setChain {c : List (Nat × List Key)} (i : Nat) (ks : List Key) (h : chainsWf c = true) :
    chainsWf (setChain c i ks) = true := by
  simp only [chainsWf, Bool.and_eq_true, List.all_eq_true, decide_eq_true_eq] at h ⊢
  unfold setChain
  split
  · exact ⟨cellsRising_erase i h.1, fun e he => h.2 e (mem_cellsErase he)⟩
  · rename_i hk
    refine ⟨cellsRising_put i ks h.1, fun e he => ?_⟩
    rcases mem_cellsPut he with he | he
    · subst he; exact hk
    · exact h.2 e he

theorem mem_setChain {c : List (Nat × List Key)} {i : Nat} {ks : List Key} {e : Nat × List Key}
    (h : e ∈ setChain c i ks) : e = (i, ks) ∨ e ∈ c := by
  unfold setChain at h
  split at h
  · exact .inr (mem_cellsErase h)
  · exact mem_cellsPut h

/-- An entry of a chain is an entry of a listed cell. -/
theorem mem_chainOf {c : List (Nat × List Key)} {i : Nat} {k : Key} (h : k ∈ chainOf c i) :
    ∃ ks, (i, ks) ∈ c ∧ k ∈ ks := by
  unfold chainOf at h
  cases hg : cellsGet c i with
  | none => simp [hg] at h
  | some ks => exact ⟨ks, mem_of_cellsGet hg, by simpa [hg] using h⟩

theorem chainOf_nil (i : Nat) : chainOf [] i = [] := rfl

theorem chainOf_of_mem {c : List (Nat × List Key)} {e : Nat × List Key} (hw : chainsWf c = true) (h : e ∈ c) :
    chainOf c e.1 = e.2 := by
  simp only [chainsWf, Bool.and_eq_true] at hw
  simp [chainOf, cellsGet_of_mem hw.1 (a := e.1) (x := e.2) h]

/-- Canonical chain stores with the same chains are equal data. -/
theorem chains_ext {c d : List (Nat × List Key)} (hc : chainsWf c = true) (hd : chainsWf d = true)
    (h : ∀ i, chainOf c i = chainOf d i) : c = d := by
  have hc' := hc
  have hd' := hd
  simp only [chainsWf, Bool.and_eq_true, List.all_eq_true, decide_eq_true_eq] at hc hd
  refine cells_ext hc.1 hd.1 fun i => ?_
  have hi := h i
  unfold chainOf at hi
  cases h1 : cellsGet c i <;> cases h2 : cellsGet d i
  · rfl
  · rename_i ks
    simp only [h1, h2, Option.getD_none, Option.getD_some] at hi
    exact absurd hi.symm (hd.2 _ (mem_of_cellsGet h2))
  · rename_i ks
    simp only [h1, h2, Option.getD_none, Option.getD_some] at hi
    exact absurd hi (hc.2 _ (mem_of_cellsGet h1))
  · simp only [h1, h2, Option.getD_some] at hi
    rw [hi]

/-- The chain store of the reset state is in the canonical form. -/
theorem reset_chains_wf (cfg : Config) : chainsWf (State.resetWith cfg).chains = true := rfl

/-! ### Sums over the buckets -/

theorem entryCount_congr {c d : List (Nat × List Key)} {n : Nat} (h : ∀ i, i < n → chainOf d i = chainOf c i) :
    entryCount d n = entryCount c n := by
  induction n with
  | zero => rfl
  | succ n ih => simp only [entryCount, h n (by omega), ih fun i hi => h i (by omega)]

theorem collisionCount_congr {c d : List (Nat × List Key)} {n : Nat} (h : ∀ i, i < n → chainOf d i = chainOf c i) :
    collisionCount d n = collisionCount c n := by
  induction n with
  | zero => rfl
  | succ n ih => simp only [collisionCount, h n (by omega), ih fun i hi => h i (by omega)]

theorem entryCount_nil (n : Nat) : entryCount [] n = 0 := by
  induction n with
  | zero => rfl
  | succ n ih => simp [entryCount, ih, chainOf_nil]

/-- Replacing the chain of one bucket moves the sum of the lengths by the change of that chain. -/
theorem entryCount_setChain {c : List (Nat × List Key)} {i n : Nat} (ks : List Key) (hw : chainsWf c = true)
    (hi : i < n) : entryCount (setChain c i ks) n + (chainOf c i).length = entryCount c n + ks.length := by
  induction n with
  | zero => omega
  | succ n ih =>
    simp only [entryCount]
    by_cases h : i = n
    · subst h
      rw [chainOf_setChain_same _ _ hw,
        entryCount_congr (c := c) (d := setChain c i ks) fun j hj => chainOf_setChain_other _ _ (by omega)]
      omega
    · have := ih (by omega)
      rw [chainOf_setChain_other _ _ (fun e => h e.symm)]
      omega

/-- The same for the collision sum. -/
theorem collisionCount_setChain {c : List (Nat × List Key)} {i n : Nat} (ks : List Key) (hw : chainsWf c = true)
    (hi : i < n) :
    collisionCount (setChain c i ks) n + ((chainOf c i).length - 1) = collisionCount c n + (ks.length - 1) := by
  induction n with
  | zero => omega
  | succ n ih =>
    simp only [collisionCount]
    by_cases h : i = n
    · subst h
      rw [chainOf_setChain_same _ _ hw,
        collisionCount_congr (c := c) (d := setChain c i ks) fun j hj => chainOf_setChain_other _ _ (by omega)]
      omega
    · have := ih (by omega)
      rw [chainOf_setChain_other _ _ (fun e => h e.symm)]
      omega

/-- One chain is at most the sum. -/
theorem length_le_entryCount (c : List (Nat × List Key)) {i n : Nat} (hi : i < n) :
    (chainOf c i).length ≤ entryCount c n := by
  induction n with
  | zero => omega
  | succ n ih =>
    simp only [entryCount]
    by_cases h : i = n
    · subst h; omega
    · have := ih (by omega); omega

/-! ### Searching a chain (R181) -/

theorem findKey_eq_none {k : Key} {es : List Key} : findKey k es = none ↔ k ∉ es := by
  induction es with
  | nil => simp [findKey]
  | cons e es ih =>
    simp only [findKey]
    split
    · rename_i h; simp [h]
    · rename_i h
      simp [Option.map_eq_none_iff, ih, Ne.symm h]

/-- The position found holds the key, and no earlier position does. -/
theorem findKey_eq_some {k : Key} {es : List Key} {j : Nat} :
    findKey k es = some j ↔ es[j]? = some k ∧ ∀ i, i < j → es[i]? ≠ some k := by
  induction es generalizing j with
  | nil => simp [findKey]
  | cons e es ih =>
    simp only [findKey]
    split
    · rename_i h
      subst h
      cases j with
      | zero => simp
      | succ j =>
        simp only [Option.some.injEq, Nat.right_eq_add, Nat.add_eq_zero_iff, Nat.one_ne_zero, and_false, false_iff,
          not_and, not_forall]
        intro _
        exact ⟨0, by omega, by simp⟩
    · rename_i h
      cases j with
      | zero => simp [h]
      | succ j =>
        simp only [Option.map_eq_some_iff, Nat.add_right_cancel_iff, exists_eq_right, ih, List.getElem?_cons_succ]
        constructor
        · rintro ⟨h1, h2⟩
          refine ⟨h1, fun i hi => ?_⟩
          cases i with
          | zero => simpa using h
          | succ i => simpa using h2 i (by omega)
        · rintro ⟨h1, h2⟩
          exact ⟨h1, fun i hi => by simpa using h2 (i + 1) (by omega)⟩

/-- Taking out the first match is `List.erase` (R181, R186). -/
theorem eraseIdx_findKey {k : Key} {es : List Key} {j : Nat} (h : findKey k es = some j) :
    es.eraseIdx j = es.erase k := by
  induction es generalizing j with
  | nil => simp [findKey] at h
  | cons e es ih =>
    simp only [findKey] at h
    split at h
    · rename_i he; cases h; subst he; simp
    · rename_i he
      rw [Option.map_eq_some_iff] at h
      obtain ⟨j', hj, rfl⟩ := h
      rw [List.eraseIdx_cons_succ, ih hj, List.erase_cons_tail (by simpa using he)]

theorem findKey_lt {k : Key} {es : List Key} {j : Nat} (h : findKey k es = some j) : j < es.length := by
  have := (findKey_eq_some.1 h).1
  exact (List.getElem?_eq_some_iff.1 this).1

theorem without_length {xs : List α} {j : Nat} (h : j < xs.length) : (without xs j).length = xs.length - 1 := by
  induction xs generalizing j with
  | nil => simp at h
  | cons x xs ih =>
    cases j with
    | zero => simp [without]
    | succ j =>
      have hj : j < xs.length := by simpa using h
      simp only [without, List.length_cons, ih hj]
      omega

theorem mem_without {xs : List α} {j : Nat} {x : α} (h : x ∈ without xs j) : x ∈ xs := by
  induction xs generalizing j with
  | nil => simp [without] at h
  | cons y xs ih =>
    cases j with
    | zero => exact List.mem_cons_of_mem _ h
    | succ j =>
      simp only [without] at h
      rcases List.mem_cons.1 h with h | h
      · exact h ▸ List.mem_cons_self ..
      · exact List.mem_cons_of_mem _ (ih h)

/-- Deleting position `j` keeps the elements before it and moves the later ones down by one, in order. -/
theorem without_eq_eraseIdx (xs : List α) (j : Nat) : without xs j = xs.eraseIdx j := by
  induction xs generalizing j with
  | nil => rfl
  | cons x xs ih => cases j <;> simp [without, ih]

end Sys2Proof.Machine
end

