-- ==== Sys2Proof/Laws/State.lean ====
section
/-! SUPPORT. One lemma per field of State per named update, each true by `rfl`, so that no later proof unfolds a record
update. -/

namespace Sys2Proof.Machine

/-! ### Completion (R100) -/

@[simp] theorem complete_cfg (s : State) : (complete s).cfg = s.cfg := rfl
@[simp] theorem complete_arg (s : State) : (complete s).arg = s.arg := rfl
@[simp] theorem complete_result (s : State) : (complete s).result = s.result := rfl
@[simp] theorem complete_err (s : State) : (complete s).err = okCode := rfl
@[simp] theorem complete_errs (s : State) : (complete s).errs = s.errs := rfl
@[simp] theorem complete_tvalid (s : State) : (complete s).tvalid = s.tvalid := rfl
@[simp] theorem complete_hsel (s : State) : (complete s).hsel = s.hsel := rfl
@[simp] theorem complete_digest (s : State) : (complete s).digest = s.digest := rfl
@[simp] theorem complete_idx (s : State) : (complete s).idx = s.idx := rfl
@[simp] theorem complete_keylen (s : State) : (complete s).keylen = s.keylen := rfl
@[simp] theorem complete_keybuf (s : State) : (complete s).keybuf = s.keybuf := rfl
@[simp] theorem complete_fnvAcc (s : State) : (complete s).fnvAcc = s.fnvAcc := rfl
@[simp] theorem complete_murH (s : State) : (complete s).murH = s.murH := rfl
@[simp] theorem complete_murTail (s : State) : (complete s).murTail = s.murTail := rfl
@[simp] theorem complete_murLen (s : State) : (complete s).murLen = s.murLen := rfl
@[simp] theorem complete_buckets (s : State) : (complete s).buckets = s.buckets := rfl
@[simp] theorem complete_size (s : State) : (complete s).size = s.size := rfl
@[simp] theorem complete_chains (s : State) : (complete s).chains = s.chains := rfl
@[simp] theorem complete_port (s : State) : (complete s).port = s.port := rfl
@[simp] theorem complete_returned (s : State) : (complete s).returned = s.returned := rfl

/-! ### Failure (R212) -/

@[simp] theorem raise_cfg (c : ErrCode) (s : State) : (raise c s).cfg = s.cfg := rfl
@[simp] theorem raise_arg (c : ErrCode) (s : State) : (raise c s).arg = s.arg := rfl
@[simp] theorem raise_result (c : ErrCode) (s : State) : (raise c s).result = s.result := rfl
@[simp] theorem raise_err (c : ErrCode) (s : State) : (raise c s).err = errCode c := rfl
@[simp] theorem raise_errs (c : ErrCode) (s : State) : (raise c s).errs = true := rfl
@[simp] theorem raise_tvalid (c : ErrCode) (s : State) : (raise c s).tvalid = s.tvalid := rfl
@[simp] theorem raise_hsel (c : ErrCode) (s : State) : (raise c s).hsel = s.hsel := rfl
@[simp] theorem raise_digest (c : ErrCode) (s : State) : (raise c s).digest = s.digest := rfl
@[simp] theorem raise_idx (c : ErrCode) (s : State) : (raise c s).idx = s.idx := rfl
@[simp] theorem raise_keylen (c : ErrCode) (s : State) : (raise c s).keylen = s.keylen := rfl
@[simp] theorem raise_keybuf (c : ErrCode) (s : State) : (raise c s).keybuf = s.keybuf := rfl
@[simp] theorem raise_fnvAcc (c : ErrCode) (s : State) : (raise c s).fnvAcc = s.fnvAcc := rfl
@[simp] theorem raise_murH (c : ErrCode) (s : State) : (raise c s).murH = s.murH := rfl
@[simp] theorem raise_murTail (c : ErrCode) (s : State) : (raise c s).murTail = s.murTail := rfl
@[simp] theorem raise_murLen (c : ErrCode) (s : State) : (raise c s).murLen = s.murLen := rfl
@[simp] theorem raise_buckets (c : ErrCode) (s : State) : (raise c s).buckets = s.buckets := rfl
@[simp] theorem raise_size (c : ErrCode) (s : State) : (raise c s).size = s.size := rfl
@[simp] theorem raise_chains (c : ErrCode) (s : State) : (raise c s).chains = s.chains := rfl
@[simp] theorem raise_port (c : ErrCode) (s : State) : (raise c s).port = s.port := rfl
@[simp] theorem raise_returned (c : ErrCode) (s : State) : (raise c s).returned = s.returned := rfl

/-! ### Clearing the sticky flag (R102) -/

@[simp] theorem clearSticky_cfg (s : State) : (clearSticky s).cfg = s.cfg := rfl
@[simp] theorem clearSticky_arg (s : State) : (clearSticky s).arg = s.arg := rfl
@[simp] theorem clearSticky_result (s : State) : (clearSticky s).result = s.result := rfl
@[simp] theorem clearSticky_err (s : State) : (clearSticky s).err = s.err := rfl
@[simp] theorem clearSticky_errs (s : State) : (clearSticky s).errs = false := rfl
@[simp] theorem clearSticky_tvalid (s : State) : (clearSticky s).tvalid = s.tvalid := rfl
@[simp] theorem clearSticky_hsel (s : State) : (clearSticky s).hsel = s.hsel := rfl
@[simp] theorem clearSticky_digest (s : State) : (clearSticky s).digest = s.digest := rfl
@[simp] theorem clearSticky_idx (s : State) : (clearSticky s).idx = s.idx := rfl
@[simp] theorem clearSticky_keylen (s : State) : (clearSticky s).keylen = s.keylen := rfl
@[simp] theorem clearSticky_keybuf (s : State) : (clearSticky s).keybuf = s.keybuf := rfl
@[simp] theorem clearSticky_fnvAcc (s : State) : (clearSticky s).fnvAcc = s.fnvAcc := rfl
@[simp] theorem clearSticky_murH (s : State) : (clearSticky s).murH = s.murH := rfl
@[simp] theorem clearSticky_murTail (s : State) : (clearSticky s).murTail = s.murTail := rfl
@[simp] theorem clearSticky_murLen (s : State) : (clearSticky s).murLen = s.murLen := rfl
@[simp] theorem clearSticky_buckets (s : State) : (clearSticky s).buckets = s.buckets := rfl
@[simp] theorem clearSticky_size (s : State) : (clearSticky s).size = s.size := rfl
@[simp] theorem clearSticky_chains (s : State) : (clearSticky s).chains = s.chains := rfl
@[simp] theorem clearSticky_port (s : State) : (clearSticky s).port = s.port := rfl
@[simp] theorem clearSticky_returned (s : State) : (clearSticky s).returned = s.returned := rfl

/-! ### Placing a CMD write -/

@[simp] theorem withFetchWord_cfg (s : State) (nbits w : Nat) : (s.withFetchWord nbits w).cfg = s.cfg := rfl
@[simp] theorem withFetchWord_arg (s : State) (nbits w : Nat) : (s.withFetchWord nbits w).arg = s.arg := rfl
@[simp] theorem withFetchWord_result (s : State) (nbits w : Nat) : (s.withFetchWord nbits w).result = s.result := rfl
@[simp] theorem withFetchWord_err (s : State) (nbits w : Nat) : (s.withFetchWord nbits w).err = s.err := rfl
@[simp] theorem withFetchWord_errs (s : State) (nbits w : Nat) : (s.withFetchWord nbits w).errs = s.errs := rfl
@[simp] theorem withFetchWord_tvalid (s : State) (nbits w : Nat) : (s.withFetchWord nbits w).tvalid = s.tvalid := rfl
@[simp] theorem withFetchWord_hsel (s : State) (nbits w : Nat) : (s.withFetchWord nbits w).hsel = s.hsel := rfl
@[simp] theorem withFetchWord_digest (s : State) (nbits w : Nat) : (s.withFetchWord nbits w).digest = s.digest := rfl
@[simp] theorem withFetchWord_idx (s : State) (nbits w : Nat) : (s.withFetchWord nbits w).idx = s.idx := rfl
@[simp] theorem withFetchWord_keylen (s : State) (nbits w : Nat) : (s.withFetchWord nbits w).keylen = s.keylen := rfl
@[simp] theorem withFetchWord_keybuf (s : State) (nbits w : Nat) : (s.withFetchWord nbits w).keybuf = s.keybuf := rfl
@[simp] theorem withFetchWord_fnvAcc (s : State) (nbits w : Nat) : (s.withFetchWord nbits w).fnvAcc = s.fnvAcc := rfl
@[simp] theorem withFetchWord_murH (s : State) (nbits w : Nat) : (s.withFetchWord nbits w).murH = s.murH := rfl
@[simp] theorem withFetchWord_murTail (s : State) (nbits w : Nat) : (s.withFetchWord nbits w).murTail = s.murTail := rfl
@[simp] theorem withFetchWord_murLen (s : State) (nbits w : Nat) : (s.withFetchWord nbits w).murLen = s.murLen := rfl
@[simp] theorem withFetchWord_buckets (s : State) (nbits w : Nat) : (s.withFetchWord nbits w).buckets = s.buckets := rfl
@[simp] theorem withFetchWord_size (s : State) (nbits w : Nat) : (s.withFetchWord nbits w).size = s.size := rfl
@[simp] theorem withFetchWord_chains (s : State) (nbits w : Nat) : (s.withFetchWord nbits w).chains = s.chains := rfl
@[simp] theorem withFetchWord_port (s : State) (nbits w : Nat) : (s.withFetchWord nbits w).port = .write 0x00 (BitVec.ofNat 32 w) :: s.port := rfl
@[simp] theorem withFetchWord_returned (s : State) (nbits w : Nat) : (s.withFetchWord nbits w).returned = s.returned := rfl

/-! ### Replacing the flags (R27) -/

@[simp] theorem withFlags_cfg (e : BitVec 4) (b : Bool) (s : State) : (withFlags e b s).cfg = s.cfg := rfl
@[simp] theorem withFlags_arg (e : BitVec 4) (b : Bool) (s : State) : (withFlags e b s).arg = s.arg := rfl
@[simp] theorem withFlags_result (e : BitVec 4) (b : Bool) (s : State) : (withFlags e b s).result = s.result := rfl
@[simp] theorem withFlags_err (e : BitVec 4) (b : Bool) (s : State) : (withFlags e b s).err = e := rfl
@[simp] theorem withFlags_errs (e : BitVec 4) (b : Bool) (s : State) : (withFlags e b s).errs = b := rfl
@[simp] theorem withFlags_tvalid (e : BitVec 4) (b : Bool) (s : State) : (withFlags e b s).tvalid = s.tvalid := rfl
@[simp] theorem withFlags_hsel (e : BitVec 4) (b : Bool) (s : State) : (withFlags e b s).hsel = s.hsel := rfl
@[simp] theorem withFlags_digest (e : BitVec 4) (b : Bool) (s : State) : (withFlags e b s).digest = s.digest := rfl
@[simp] theorem withFlags_idx (e : BitVec 4) (b : Bool) (s : State) : (withFlags e b s).idx = s.idx := rfl
@[simp] theorem withFlags_keylen (e : BitVec 4) (b : Bool) (s : State) : (withFlags e b s).keylen = s.keylen := rfl
@[simp] theorem withFlags_keybuf (e : BitVec 4) (b : Bool) (s : State) : (withFlags e b s).keybuf = s.keybuf := rfl
@[simp] theorem withFlags_fnvAcc (e : BitVec 4) (b : Bool) (s : State) : (withFlags e b s).fnvAcc = s.fnvAcc := rfl
@[simp] theorem withFlags_murH (e : BitVec 4) (b : Bool) (s : State) : (withFlags e b s).murH = s.murH := rfl
@[simp] theorem withFlags_murTail (e : BitVec 4) (b : Bool) (s : State) : (withFlags e b s).murTail = s.murTail := rfl
@[simp] theorem withFlags_murLen (e : BitVec 4) (b : Bool) (s : State) : (withFlags e b s).murLen = s.murLen := rfl
@[simp] theorem withFlags_buckets (e : BitVec 4) (b : Bool) (s : State) : (withFlags e b s).buckets = s.buckets := rfl
@[simp] theorem withFlags_size (e : BitVec 4) (b : Bool) (s : State) : (withFlags e b s).size = s.size := rfl
@[simp] theorem withFlags_chains (e : BitVec 4) (b : Bool) (s : State) : (withFlags e b s).chains = s.chains := rfl
@[simp] theorem withFlags_port (e : BitVec 4) (b : Bool) (s : State) : (withFlags e b s).port = s.port := rfl
@[simp] theorem withFlags_returned (e : BitVec 4) (b : Bool) (s : State) : (withFlags e b s).returned = s.returned := rfl

/-! ### The answers of a command -/

@[simp] theorem finish_eq (s : State) : finish s = .next (complete s) := rfl

@[simp] theorem fail_eq (c : ErrCode) (s : State) : fail c s = .next (raise c s) := rfl

/-! ### The codes (R210) -/

@[simp] theorem okCode_eq : okCode = 0 := rfl
@[simp] theorem errCode_eill : errCode .eill = 1 := rfl
@[simp] theorem errCode_enotfound : errCode .enotfound = 2 := rfl
@[simp] theorem errCode_ecfg : errCode .ecfg = 3 := rfl
@[simp] theorem errCode_enotbl : errCode .enotbl = 4 := rfl
@[simp] theorem errCode_ebusy : errCode .ebusy = 5 := rfl
@[simp] theorem errCode_ekeyovf : errCode .ekeyovf = 6 := rfl
@[simp] theorem errCode_efull : errCode .efull = 7 := rfl
@[simp] theorem errCode_erange : errCode .erange = 8 := rfl
@[simp] theorem errCode_eseq : errCode .eseq = 9 := rfl
@[simp] theorem errCode_elen : errCode .elen = 10 := rfl

/-- Every error code is between 1 and 10 (R210). -/
theorem errCode_range (c : ErrCode) : 1 ≤ (errCode c).toNat ∧ (errCode c).toNat ≤ 10 := by
  cases c <;> decide

/-- Distinct errors have distinct codes (R210). -/
theorem errCode_injective {c d : ErrCode} (h : errCode c = errCode d) : c = d := by
  revert h; cases c <;> cases d <;> decide

end Sys2Proof.Machine
end

