-- ==== Sys2Proof/Laws/Hash.lean ====
section
/-! SUPPORT. The pseudocode of the whole-key commands (R125, R152) computes the functions of R126 and R153, and the
operations over the key buffer and the table, each said once. -/

namespace Sys2Proof.Machine

/-! ### Little-endian words (R61) -/

theorem leWord_singleton (b : Byte) : leWord [b] = zext32 b := by
  simp [leWord, add32, shl32]

/-- A byte and a word shifted past it have no bit in common, so their sum is their `or`. -/
theorem add32_zext32_shl32 (b : Byte) (w : Word) : add32 (zext32 b) (shl32 w 8) = or32 (zext32 b) (shl32 w 8) := by
  unfold add32 or32
  refine BitVec.add_eq_or_of_and_eq_zero _ _ ?_
  ext i hi
  simp only [zext32, shl32, BitVec.getElem_and, BitVec.getElem_setWidth, BitVec.getElem_shiftLeft,
    BitVec.getElem_zero, Bool.and_eq_false_imp]
  intro h
  have : i < 8 := BitVec.lt_of_getLsbD h
  simp [this]

/-- One more byte goes to the bit offset after the bytes already there. -/
theorem leWord_snoc (xs : List Byte) (b : Byte) :
    leWord (xs ++ [b]) = or32 (leWord xs) (shl32 (zext32 b) (8 * xs.length)) := by
  induction xs with
  | nil => simp [leWord, or32, shl32, add32]
  | cons x xs ih =>
    simp only [List.cons_append, leWord, add32_zext32_shl32, ih, List.length_cons]
    simp only [or32, shl32, BitVec.shiftLeft_or_distrib, ← BitVec.shiftLeft_add, BitVec.or_assoc]
    congr 4

/-! ### Reading the current key (R61, R30) -/

theorem currentKey_length {s : State} {k : Key} (h : currentKey s = some k) : k.length = s.keylen.toNat :=
  memBytes_length h

/-- MemRead inside the current key reads its bytes. -/
theorem memRead_of_currentKey {s : State} {k : Key} (h : currentKey s = some k) {a n : Nat} (hn : a + n ≤ k.length) :
    memRead s a n = some (leWord ((k.drop a).take n)) := by
  have hl := currentKey_length h
  unfold memRead
  rw [if_pos (by omega), memBytes_sub h (by omega)]
  rfl

theorem memRead_byte_of_currentKey {s : State} {k : Key} (h : currentKey s = some k) {a : Nat} (hn : a < k.length) :
    memRead s a 1 = some (zext32 k[a]) := by
  have hb : (k.drop a).take 1 = [k[a]] := by rw [List.drop_eq_getElem_cons hn]; rfl
  rw [memRead_of_currentKey h (by omega), hb, leWord_singleton]

/-! ### FNV (R125, R126) -/

theorem fnvLoop_of_currentKey {s : State} {k : Key} (h : currentKey s = some k) (n p : Nat) (acc : Word)
    (hn : p + n = k.length) : fnvLoop s n p acc = some (fnvFrom acc (k.drop p)) := by
  induction n generalizing p acc with
  | zero => simp [fnvLoop, List.drop_eq_nil_of_le (show k.length ≤ p by omega), fnvFrom]
  | succ n ih =>
    simp only [fnvLoop, memRead_byte_of_currentKey h (show p < k.length by omega)]
    rw [ih (p + 1) _ (by omega), List.drop_eq_getElem_cons (show p < k.length by omega)]
    rfl

/-- What `FNV_KEY` writes, in the words of R126. -/
theorem fnvKeyWrites_of_currentKey {s : State} {k : Key} (h : currentKey s = some k) :
    fnvKeyWrites s = some { s with fnvAcc := fnv1aRaw k, digest := fnv1a k } := by
  unfold fnvKeyWrites
  rw [← currentKey_length h, fnvLoop_of_currentKey h _ _ _ (by omega)]
  rfl

/-! ### Murmur (R152, R153) -/

theorem murBlockLoop_of_currentKey {s : State} {k : Key} (h : currentKey s = some k) (n b : Nat)
    (hn : b + n ≤ k.length / 4) : murBlockLoop s n b (murHashAt k b) = some (murHashAt k (b + n)) := by
  induction n generalizing b with
  | zero => rfl
  | succ n ih =>
    simp only [murBlockLoop, memRead_of_currentKey h (show 4 * b + 4 ≤ k.length by omega)]
    have := ih (b + 1) (by omega)
    rw [show b + (n + 1) = b + 1 + n by omega, ← this]
    rfl

theorem murTailLoop_of_currentKey {s : State} {k : Key} (h : currentKey s = some k) (base n j : Nat)
    (hn : base + j + n = k.length) :
    murTailLoop s base n j (leWord ((k.drop base).take j)) = some (leWord (k.drop base)) := by
  induction n generalizing j with
  | zero =>
    rw [murTailLoop, List.take_of_length_le (by simp; omega)]
  | succ n ih =>
    simp only [murTailLoop, memRead_byte_of_currentKey h (show base + j < k.length by omega)]
    have hstep : (k.drop base).take (j + 1) = (k.drop base).take j ++ [k[base + j]] := by
      rw [List.take_succ_eq_append_getElem (by simp; omega)]
      simp
    have := ih (j + 1) (by omega)
    rw [hstep, leWord_snoc] at this
    rwa [show ((k.drop base).take j).length = j by simp; omega] at this

theorem mixk_zero : mixk 0 = 0 := by decide

/-- With no pending byte the tail is 0 and `mixk(0) = 0`, so the condition of R151 has no effect (R153). -/
theorem murRawOf_of_tail_zero (h t len : Word) (ht : len.toNat % 4 = 0 → t = 0) :
    murRawOf h t len = fmix32 (xor32 (xor32 h (mixk t)) len) := by
  unfold murRawOf
  split
  · rfl
  · rw [ht (by omega), mixk_zero]
    simp [xor32]

/-- What `MUR_KEY` writes, in the words of R153. -/
theorem murKeyWrites_of_currentKey {s : State} {k : Key} (h : currentKey s = some k) :
    murKeyWrites s = some { s with
      murH := murHashOf k, murTail := murTailOf k, murLen := BitVec.ofNat 32 k.length, digest := murmur k } := by
  have hl := currentKey_length h
  have hw : s.keylen = BitVec.ofNat 32 k.length := by rw [hl]; simp
  have hlt : k.length < 2 ^ 32 := by rw [hl]; exact s.keylen.isLt
  have h1 : murBlockLoop s (k.length / 4) 0 murSeed = some (murHashOf k) := by
    have := murBlockLoop_of_currentKey h (k.length / 4) 0 (by omega)
    rwa [Nat.zero_add] at this
  have h2 : murTailLoop s (4 * (k.length / 4)) (k.length % 4) 0 0 = some (murTailOf k) :=
    murTailLoop_of_currentKey h (4 * (k.length / 4)) (k.length % 4) 0 (by omega)
  have hd : abs32 (murRawOf (murHashOf k) (murTailOf k) (BitVec.ofNat 32 k.length)) = murmur k := by
    rw [murRawOf_of_tail_zero]
    · rfl
    · intro h0
      rw [BitVec.toNat_ofNat, Nat.mod_eq_of_lt hlt] at h0
      unfold murTailOf
      rw [List.drop_eq_nil_of_le (by omega)]
      rfl
  unfold murKeyWrites
  rw [← hl, h1, h2, hw]
  simp only [hd]

/-! ### The lookup of the table (R171) -/

theorem lookedUp_digest (k : Key) (s : State) : (lookedUp k s).digest = hashOf s.hsel k := by
  unfold lookedUp; cases s.hsel <;> rfl

theorem lookedUp_idx (k : Key) (s : State) : (lookedUp k s).idx = umod (hashOf s.hsel k) s.buckets := by
  unfold lookedUp; cases s.hsel <;> rfl

theorem lookedUp_idx_toNat (k : Key) (s : State) : (lookedUp k s).idx.toNat = bucketOf k s := by
  rw [lookedUp_idx]; rfl

@[simp] theorem lookedUp_cfg (k : Key) (s : State) : (lookedUp k s).cfg = s.cfg := by
  unfold lookedUp; cases s.hsel <;> rfl

@[simp] theorem lookedUp_arg (k : Key) (s : State) : (lookedUp k s).arg = s.arg := by
  unfold lookedUp; cases s.hsel <;> rfl

@[simp] theorem lookedUp_result (k : Key) (s : State) : (lookedUp k s).result = s.result := by
  unfold lookedUp; cases s.hsel <;> rfl

@[simp] theorem lookedUp_err (k : Key) (s : State) : (lookedUp k s).err = s.err := by
  unfold lookedUp; cases s.hsel <;> rfl

@[simp] theorem lookedUp_errs (k : Key) (s : State) : (lookedUp k s).errs = s.errs := by
  unfold lookedUp; cases s.hsel <;> rfl

@[simp] theorem lookedUp_tvalid (k : Key) (s : State) : (lookedUp k s).tvalid = s.tvalid := by
  unfold lookedUp; cases s.hsel <;> rfl

@[simp] theorem lookedUp_hsel (k : Key) (s : State) : (lookedUp k s).hsel = s.hsel := by
  unfold lookedUp; cases s.hsel <;> rfl

@[simp] theorem lookedUp_keylen (k : Key) (s : State) : (lookedUp k s).keylen = s.keylen := by
  unfold lookedUp; cases s.hsel <;> rfl

@[simp] theorem lookedUp_keybuf (k : Key) (s : State) : (lookedUp k s).keybuf = s.keybuf := by
  unfold lookedUp; cases s.hsel <;> rfl

@[simp] theorem lookedUp_buckets (k : Key) (s : State) : (lookedUp k s).buckets = s.buckets := by
  unfold lookedUp; cases s.hsel <;> rfl

@[simp] theorem lookedUp_size (k : Key) (s : State) : (lookedUp k s).size = s.size := by
  unfold lookedUp; cases s.hsel <;> rfl

@[simp] theorem lookedUp_chains (k : Key) (s : State) : (lookedUp k s).chains = s.chains := by
  unfold lookedUp; cases s.hsel <;> rfl

@[simp] theorem lookedUp_port (k : Key) (s : State) : (lookedUp k s).port = s.port := by
  unfold lookedUp; cases s.hsel <;> rfl

@[simp] theorem lookedUp_returned (k : Key) (s : State) : (lookedUp k s).returned = s.returned := by
  unfold lookedUp; cases s.hsel <;> rfl

/-- `TableHash()` on the current key (R171). -/
theorem tableHash_of_currentKey {s : State} {k : Key} (h : currentKey s = some k) :
    tableHash s = some (lookedUp k s) := by
  cases hs : s.hsel
  · simp [tableHash, tableKeyWrites, lookedUp, hs, fnvKeyWrites_of_currentKey h]
  · simp [tableHash, tableKeyWrites, lookedUp, hs, murKeyWrites_of_currentKey h]

/-- A command that hashes the current key runs on the lookup's state. -/
theorem withHashedKey_of_currentKey {s : State} {k : Key} (h : currentKey s = some k) (f : State → Key → Result) :
    withHashedKey s f = f (lookedUp k s) k := by
  simp [withHashedKey, tableHash_of_currentKey h, h]

theorem withTable_live {s : State} (h : s.tvalid = true) (f : Result) : withTable s f = f := by
  simp [withTable, h]

theorem withTable_none {s : State} (h : s.tvalid = false) (f : Result) :
    withTable s f = .next (raise .enotbl s) := by
  simp [withTable, h]

/-! ### Reading needs the key -/

/-- Without a current key the loop over its bytes has no value. -/
theorem fnvLoop_none {s : State} (n p : Nat) (acc : Word) (hp : p + n = s.keylen.toNat)
    (h : memBytes s.keybuf p n = none) : fnvLoop s n p acc = none := by
  induction n generalizing p acc with
  | zero => simp [memBytes] at h
  | succ n ih =>
    simp only [fnvLoop]
    split
    · rename_i w hw
      refine ih (p + 1) _ (by omega) ?_
      by_contra hc
      obtain ⟨bs, hbs⟩ := Option.ne_none_iff_exists'.1 hc
      unfold memRead at hw
      split at hw
      · rw [Option.map_eq_some_iff] at hw
        obtain ⟨b1, hb1, -⟩ := hw
        have := memBytes_append hb1 hbs
        rw [Nat.add_comm 1 n] at this
        rw [this] at h
        cases h
      · cases hw
    · rfl

/-- `FNV_KEY`'s writes exist exactly when the current key can be read. -/
theorem fnvKeyWrites_eq_none {s : State} (h : currentKey s = none) : fnvKeyWrites s = none := by
  unfold fnvKeyWrites
  rw [fnvLoop_none _ _ _ (by omega) h]
  rfl

/-! ### Pushing bytes (R104, R105) -/

/-- What a push that fits does: the bytes go to KEYLEN and up, and KEYLEN counts them. -/
theorem pushBytes_of_room {s : State} {n : Nat} (v : Word) (h : s.keylen.toNat + n ≤ s.cfg.keyMax) :
    pushBytes n v s = .next { s with
      keybuf := writeBytes s.keybuf s.keylen.toNat v n, keylen := s.keylen + BitVec.ofNat 32 n, err := 0 } := by
  simp only [pushBytes, memWrite, if_pos h]
  rfl

/-- The key after a push that fits: the bytes pushed stand after the old key. -/
theorem currentKey_push {s : State} {n : Nat} {k : Key} (v : Word) (h : currentKey s = some k)
    (hfit : k.length + n < 2 ^ 32) :
    memBytes (writeBytes s.keybuf s.keylen.toNat v n) 0 (s.keylen + BitVec.ofNat 32 n).toNat =
      some (k ++ (List.range n).map (byteOf v)) := by
  have hl := currentKey_length h
  have hlen : (s.keylen + BitVec.ofNat 32 n).toNat = s.keylen.toNat + n := by
    rw [BitVec.toNat_add, BitVec.toNat_ofNat]
    omega
  rw [hlen]
  refine memBytes_append ?_ ?_
  · rw [memBytes_congr (m := s.keybuf) fun p _ hp => read_writeBytes_out _ _ _ (.inl (by omega))]
    exact h
  · refine memBytes_eq_some.2 ⟨by simp, fun j hj => ?_⟩
    simp only [List.length_map, List.length_range] at hj
    rw [Nat.zero_add, read_writeBytes_in _ _ _ hj]
    simp

end Sys2Proof.Machine
end

