-- ==== Sys2Proof/Laws/Ops.lean ====
section
/-! SUPPORT. What each shared operation and each command that can fail or read the key does, said once: if it answers
`next t`, then its premises hold and `t` is this state. Later proofs cite these and unfold no meaning. -/

namespace Sys2Proof.Machine

/-! ### Memory operations (R61) -/

/-- MemWrite answers exactly inside its domain, with the bytes written and nothing else changed. -/
theorem memWrite_eq_some {s t : State} {a n : Nat} {v : Word} :
    memWrite s a n v = some t ↔ a + n ≤ s.cfg.keyMax ∧ t = { s with keybuf := writeBytes s.keybuf a v n } := by
  unfold memWrite
  split
  · rename_i h; simp [h, eq_comm]
  · rename_i h; simp [h]

/-- MemRead answers exactly inside its domain and where every byte has a value. -/
theorem memRead_eq_some {s : State} {a n : Nat} {w : Word} :
    memRead s a n = some w ↔ a + n ≤ s.keylen.toNat ∧ ∃ bs, memBytes s.keybuf a n = some bs ∧ w = leWord bs := by
  unfold memRead
  split
  · rename_i h; simp [h, eq_comm]
  · rename_i h; simp [h]

/-- A push that answers had room, and appended its bytes (R104, R105). -/
theorem pushBytes_next {s t : State} {n : Nat} {v : Word} (h : pushBytes n v s = .next t) :
    s.keylen.toNat + n ≤ s.cfg.keyMax ∧ t = { s with
      keybuf := writeBytes s.keybuf s.keylen.toNat v n, keylen := s.keylen + BitVec.ofNat 32 n, err := 0 } := by
  by_cases hr : s.keylen.toNat + n ≤ s.cfg.keyMax
  · rw [pushBytes_of_room v hr] at h
    exact ⟨hr, by cases h; rfl⟩
  · simp [pushBytes, memWrite, hr] at h

/-! ### Hashing the key -/

theorem fnvKeyWrites_eq_some {s t : State} (h : fnvKeyWrites s = some t) :
    ∃ k, currentKey s = some k ∧ t = { s with fnvAcc := fnv1aRaw k, digest := fnv1a k } := by
  cases hk : currentKey s with
  | none => rw [fnvKeyWrites_eq_none hk] at h; cases h
  | some k => rw [fnvKeyWrites_of_currentKey hk] at h; exact ⟨k, rfl, by cases h; rfl⟩

/-- The block loop answers only where it reads bytes that have a value. -/
theorem murBlockLoop_bytes {s : State} {n b : Nat} {h w : Word} (hw : murBlockLoop s n b h = some w) :
    ∃ bs, memBytes s.keybuf (4 * b) (4 * n) = some bs := by
  induction n generalizing b h with
  | zero => exact ⟨[], rfl⟩
  | succ n ih =>
    simp only [murBlockLoop] at hw
    split at hw
    · rename_i k hk
      obtain ⟨-, xs, hx, -⟩ := memRead_eq_some.1 hk
      obtain ⟨ys, hy⟩ := ih hw
      have := memBytes_append hx hy
      rw [show 4 * (n + 1) = 4 + 4 * n by omega]
      exact ⟨_, this⟩
    · cases hw

/-- The tail loop answers only where it reads bytes that have a value. -/
theorem murTailLoop_bytes {s : State} {base n j : Nat} {t w : Word} (hw : murTailLoop s base n j t = some w) :
    ∃ bs, memBytes s.keybuf (base + j) n = some bs := by
  induction n generalizing j t with
  | zero => exact ⟨[], rfl⟩
  | succ n ih =>
    simp only [murTailLoop] at hw
    split at hw
    · rename_i k hk
      obtain ⟨-, xs, hx, -⟩ := memRead_eq_some.1 hk
      obtain ⟨ys, hy⟩ := ih hw
      have := memBytes_append hx hy
      rw [show n + 1 = 1 + n by omega]
      exact ⟨_, this⟩
    · cases hw

theorem murKeyWrites_eq_some {s t : State} (h : murKeyWrites s = some t) :
    ∃ k, currentKey s = some k ∧ t = { s with
      murH := murHashOf k, murTail := murTailOf k, murLen := s.keylen, digest := murmur k } := by
  have hk : ∃ k, currentKey s = some k := by
    unfold murKeyWrites at h
    split at h
    · rename_i hb ht
      obtain ⟨xs, hx⟩ := murBlockLoop_bytes hb
      obtain ⟨ys, hy⟩ := murTailLoop_bytes ht
      have := memBytes_append (by simpa using hx) (by simpa using hy)
      rw [Nat.div_add_mod] at this
      exact ⟨_, this⟩
    · cases h
  obtain ⟨k, hk⟩ := hk
  rw [murKeyWrites_of_currentKey hk] at h
  refine ⟨k, hk, ?_⟩
  cases h
  simp [currentKey_length hk]

/-- A command that hashes the key and answers had a key, and went on from the state after `TableHash()` (R171). -/
theorem withHashedKey_next {s t : State} {f : State → Key → Result} (h : withHashedKey s f = .next t) :
    ∃ k, currentKey s = some k ∧ f (lookedUp k s) k = .next t := by
  cases hk : currentKey s with
  | none =>
    unfold withHashedKey at h
    rw [hk] at h
    split at h
    · rename_i h1; cases h1
    · cases h
  | some k => rw [withHashedKey_of_currentKey hk] at h; exact ⟨k, rfl, h⟩

/-- A command that needs a live table either had one and went on, or failed with `ENOTBL` (R182). -/
theorem withTable_next {s t : State} {r : Result} (h : withTable s r = .next t) :
    (s.tvalid = true ∧ r = .next t) ∨ (s.tvalid = false ∧ t = raise .enotbl s) := by
  cases hv : s.tvalid with
  | true => rw [withTable_live hv] at h; exact .inl ⟨rfl, h⟩
  | false => rw [withTable_none hv] at h; exact .inr ⟨rfl, by cases h; rfl⟩

/-! ### Commands on the key buffer -/

theorem execKeyPush_next {s t : State} {b : Byte} (h : execKeyPush b s = .next t) :
    (s.keylen.toNat = s.cfg.keyMax ∧ t = raise .ekeyovf s) ∨
    (s.keylen.toNat + 1 ≤ s.cfg.keyMax ∧ t = { s with
      keybuf := writeBytes s.keybuf s.keylen.toNat (immOperand b) 1, keylen := s.keylen + 1, err := 0 }) := by
  unfold execKeyPush at h
  split at h
  · exact .inl ⟨‹_›, by cases h; rfl⟩
  · exact .inr (pushBytes_next h)

theorem execKeyPushw_next {s t : State} (h : execKeyPushw s = .next t) :
    (s.cfg.keyMax < s.keylen.toNat + 4 ∧ t = raise .ekeyovf s) ∨
    (s.keylen.toNat + 4 ≤ s.cfg.keyMax ∧ t = { s with
      keybuf := writeBytes s.keybuf s.keylen.toNat s.arg 4, keylen := s.keylen + 4, err := 0 }) := by
  unfold execKeyPushw at h
  split at h
  · exact .inl ⟨‹_›, by cases h; rfl⟩
  · exact .inr (pushBytes_next h)

/-! ### Commands of the hash cores -/

theorem execFnvKey_next {s t : State} (h : execFnvKey s = .next t) :
    ∃ k, currentKey s = some k ∧ t = { s with fnvAcc := fnv1aRaw k, digest := fnv1a k, err := 0 } := by
  unfold execFnvKey at h
  split at h
  · rename_i u hu
    obtain ⟨k, hk, rfl⟩ := fnvKeyWrites_eq_some hu
    exact ⟨k, hk, by cases h; rfl⟩
  · cases h

theorem execMurByte_next {s t : State} {b : Byte} (h : execMurByte b s = .next t) :
    (s.murLen = 0xFFFFFFFF#32 ∧ t = raise .elen s) ∨
    (s.murLen ≠ 0xFFFFFFFF#32 ∧ s.murLen.toNat % 4 = 3 ∧ t = { s with
      murH := murFold s.murH (murTailWith s b), murTail := 0, murLen := s.murLen + 1, err := 0 }) ∨
    (s.murLen ≠ 0xFFFFFFFF#32 ∧ s.murLen.toNat % 4 ≠ 3 ∧ t = { s with
      murTail := murTailWith s b, murLen := s.murLen + 1, err := 0 }) := by
  unfold execMurByte at h
  split at h
  · exact .inl ⟨‹_›, by cases h; rfl⟩
  · split at h
    · exact .inr (.inl ⟨‹_›, ‹_›, by cases h; rfl⟩)
    · exact .inr (.inr ⟨‹_›, ‹_›, by cases h; rfl⟩)

theorem execMurBlock_next {s t : State} (h : execMurBlock s = .next t) :
    (s.murLen.toNat % 4 ≠ 0 ∧ t = raise .eseq s) ∨
    (s.murLen.toNat % 4 = 0 ∧ s.murLen.toNat > 0xFFFFFFFB ∧ t = raise .elen s) ∨
    (s.murLen.toNat % 4 = 0 ∧ s.murLen.toNat ≤ 0xFFFFFFFB ∧ t = { s with
      murH := murFold s.murH s.arg, murLen := s.murLen + 4, err := 0 }) := by
  unfold execMurBlock at h
  split at h
  · exact .inl ⟨‹_›, by cases h; rfl⟩
  · split at h
    · exact .inr (.inl ⟨by omega, ‹_›, by cases h; rfl⟩)
    · exact .inr (.inr ⟨by omega, by omega, by cases h; rfl⟩)

theorem execMurKey_next {s t : State} (h : execMurKey s = .next t) :
    ∃ k, currentKey s = some k ∧ t = { s with
      murH := murHashOf k, murTail := murTailOf k, murLen := s.keylen, digest := murmur k, err := 0 } := by
  unfold execMurKey at h
  split at h
  · rename_i u hu
    obtain ⟨k, hk, rfl⟩ := murKeyWrites_eq_some hu
    exact ⟨k, hk, by cases h; rfl⟩
  · cases h

/-! ### Commands of the table -/

theorem execTblInit_next {s t : State} {sel : Hasher} (h : execTblInit sel s = .next t) :
    (s.tvalid = true ∧ t = raise .ebusy s) ∨
    (s.tvalid = false ∧ (s.arg = 0 ∨ s.arg.toNat > s.cfg.maxBuckets) ∧ t = raise .ecfg s) ∨
    (s.tvalid = false ∧ s.arg ≠ 0 ∧ s.arg.toNat ≤ s.cfg.maxBuckets ∧ t = { s with
      tvalid := true, hsel := sel, buckets := s.arg, size := 0, chains := [], err := 0 }) := by
  unfold execTblInit at h
  split at h
  · exact .inl ⟨‹_›, by cases h; rfl⟩
  · have hv : s.tvalid = false := by simpa using ‹¬s.tvalid = true›
    split at h
    · exact .inr (.inl ⟨hv, ‹_›, by cases h; rfl⟩)
    · rename_i hn
      simp only [argOperand, not_or] at hn
      exact .inr (.inr ⟨hv, hn.1, by omega, by cases h; rfl⟩)

theorem execTblDiscard_next {s t : State} (h : execTblDiscard s = .next t) :
    (s.tvalid = false ∧ t = raise .enotbl s) ∨
    (s.tvalid = true ∧ t = { s with
      tvalid := false, hsel := .fnv, buckets := 0, size := 0, chains := [], err := 0 }) := by
  obtain ⟨hv, h⟩ | ⟨hv, h⟩ := withTable_next h
  · exact .inr ⟨hv, by cases h; rfl⟩
  · exact .inl ⟨hv, h⟩

theorem execTblAdd_next {s t : State} (h : execTblAdd s = .next t) :
    (s.tvalid = false ∧ t = raise .enotbl s) ∨
    (s.tvalid = true ∧ s.size.toNat = s.cfg.maxEntries ∧ t = raise .efull s) ∨
    (s.tvalid = true ∧ s.size.toNat ≠ s.cfg.maxEntries ∧ ∃ k, currentKey s = some k ∧ t = { lookedUp k s with
      chains := setChain s.chains (bucketOf k s) (chainOf s.chains (bucketOf k s) ++ [k])
      size := s.size + 1, err := 0 }) := by
  obtain ⟨hv, h⟩ | ⟨hv, h⟩ := withTable_next h
  · split at h
    · exact .inr (.inl ⟨hv, ‹_›, by cases h; rfl⟩)
    · obtain ⟨k, hk, h⟩ := withHashedKey_next h
      refine .inr (.inr ⟨hv, ‹_›, k, hk, ?_⟩)
      cases h
      simp [complete, idxChain, lookedUp_idx_toNat]
  · exact .inl ⟨hv, h⟩

theorem execTblContains_next {s t : State} (h : execTblContains s = .next t) :
    (s.tvalid = false ∧ t = raise .enotbl s) ∨
    (s.tvalid = true ∧ ∃ k, currentKey s = some k ∧ t = { lookedUp k s with
      result := if k ∈ chainOf s.chains (bucketOf k s) then 1 else 0, err := 0 }) := by
  obtain ⟨hv, h⟩ | ⟨hv, h⟩ := withTable_next h
  · obtain ⟨k, hk, h⟩ := withHashedKey_next h
    refine .inr ⟨hv, k, hk, ?_⟩
    simp only [idxChain, lookedUp_idx_toNat, lookedUp_chains] at h
    split at h
    · rename_i hf; rw [if_neg (findKey_eq_none.1 hf)]; cases h; simp [complete]
    · rename_i j hf
      rw [if_pos (List.mem_of_getElem? (findKey_eq_some.1 hf).1)]; cases h; simp [complete]
  · exact .inl ⟨hv, h⟩

theorem execTblRemove_next {s t : State} (h : execTblRemove s = .next t) :
    (s.tvalid = false ∧ t = raise .enotbl s) ∨
    (s.tvalid = true ∧ ∃ k, currentKey s = some k ∧
      ((k ∉ chainOf s.chains (bucketOf k s) ∧ t = raise .enotfound { lookedUp k s with result := 0 }) ∨
       ∃ j, findKey k (chainOf s.chains (bucketOf k s)) = some j ∧ t = { lookedUp k s with
         chains := setChain s.chains (bucketOf k s) ((chainOf s.chains (bucketOf k s)).eraseIdx j)
         size := s.size - 1, result := 1, err := 0 })) := by
  obtain ⟨hv, h⟩ | ⟨hv, h⟩ := withTable_next h
  · obtain ⟨k, hk, h⟩ := withHashedKey_next h
    refine .inr ⟨hv, k, hk, ?_⟩
    simp only [idxChain, lookedUp_idx_toNat, lookedUp_chains] at h
    split at h
    · rename_i hf; exact .inl ⟨findKey_eq_none.1 hf, by cases h; simp [raise]⟩
    · rename_i j hf
      refine .inr ⟨j, hf, ?_⟩
      cases h
      simp [complete, without_eq_eraseIdx]
  · exact .inl ⟨hv, h⟩

theorem execTblDist_next {s t : State} (h : execTblDist s = .next t) :
    (s.tvalid = false ∧ t = raise .enotbl s) ∨
    (s.tvalid = true ∧ s.buckets.toNat ≤ s.arg.toNat ∧ t = raise .erange s) ∨
    (s.tvalid = true ∧ s.arg.toNat < s.buckets.toNat ∧ t = { s with
      result := BitVec.ofNat 32 (chainOf s.chains s.arg.toNat).length, err := 0 }) := by
  obtain ⟨hv, h⟩ | ⟨hv, h⟩ := withTable_next h
  · split at h
    · exact .inr (.inl ⟨hv, ‹_›, by cases h; rfl⟩)
    · rename_i hn
      exact .inr (.inr ⟨hv, by simpa [argOperand] using hn, by cases h; rfl⟩)
  · exact .inl ⟨hv, h⟩

theorem execTblColl_next {s t : State} (h : execTblColl s = .next t) :
    (s.tvalid = false ∧ t = raise .enotbl s) ∨
    (s.tvalid = true ∧ t = { s with
      result := BitVec.ofNat 32 (collisionCount s.chains s.buckets.toNat), err := 0 }) := by
  obtain ⟨hv, h⟩ | ⟨hv, h⟩ := withTable_next h
  · exact .inr ⟨hv, by cases h; rfl⟩
  · exact .inl ⟨hv, h⟩

theorem execTblSize_next {s t : State} (h : execTblSize s = .next t) :
    (s.tvalid = false ∧ t = raise .enotbl s) ∨ (s.tvalid = true ∧ t = { s with result := s.size, err := 0 }) := by
  obtain ⟨hv, h⟩ | ⟨hv, h⟩ := withTable_next h
  · exact .inr ⟨hv, by cases h; rfl⟩
  · exact .inl ⟨hv, h⟩

end Sys2Proof.Machine
end

