-- ==== Sys2Proof/Laws/PerInstr.lean ====
section
/-! SUPPORT. The family TableRow: the word of every command matches the row of R84 that has the command's mnemonic. One
lemma per command. -/

namespace Sys2Proof.Laws.TableRow

/-- The row of R84 with the command's mnemonic is in the table, and the command's word matches its mask and pattern. -/
def Statement (i : Instr) : Prop :=
  ∃ row ∈ opcodeTable, row.mnemonic = Sys2Proof.mnemonic i ∧ encode i &&& row.mask = row.pattern

theorem nop : Statement .nop := by unfold Statement; decide
theorem clrErr : Statement .clrErr := by unfold Statement; decide
theorem keyClr : Statement .keyClr := by unfold Statement; decide

theorem keyPush (imm8 : Byte) : Statement (.keyPush imm8) :=
  ⟨⟨"KEY_PUSH", 0x00000011, 0xFFFF00FF⟩, by decide, rfl, by revert imm8; decide⟩

theorem keyPushw : Statement .keyPushw := by unfold Statement; decide
theorem fnvInit : Statement .fnvInit := by unfold Statement; decide

theorem fnvByte (imm8 : Byte) : Statement (.fnvByte imm8) :=
  ⟨⟨"FNV_BYTE", 0x00000021, 0xFFFF00FF⟩, by decide, rfl, by revert imm8; decide⟩

theorem fnvFinal : Statement .fnvFinal := by unfold Statement; decide
theorem fnvKey : Statement .fnvKey := by unfold Statement; decide
theorem murInit : Statement .murInit := by unfold Statement; decide

theorem murByte (imm8 : Byte) : Statement (.murByte imm8) :=
  ⟨⟨"MUR_BYTE", 0x00000031, 0xFFFF00FF⟩, by decide, rfl, by revert imm8; decide⟩

theorem murBlock : Statement .murBlock := by unfold Statement; decide
theorem murFinal : Statement .murFinal := by unfold Statement; decide
theorem murKey : Statement .murKey := by unfold Statement; decide

theorem tblInit (sel : Hasher) : Statement (.tblInit sel) :=
  ⟨⟨"TBL_INIT", 0x00000040, 0xFFFFFEFF⟩, by decide, rfl, by cases sel <;> decide⟩

theorem tblDiscard : Statement .tblDiscard := by unfold Statement; decide
theorem tblAdd : Statement .tblAdd := by unfold Statement; decide
theorem tblContains : Statement .tblContains := by unfold Statement; decide
theorem tblRemove : Statement .tblRemove := by unfold Statement; decide
theorem tblDist : Statement .tblDist := by unfold Statement; decide
theorem tblColl : Statement .tblColl := by unfold Statement; decide
theorem tblSize : Statement .tblSize := by unfold Statement; decide

end Sys2Proof.Laws.TableRow
end

