-- ==== Sys2Proof/Laws/Port.lean ====
section
/-! SUPPORT. What a transaction does, said once: if it answers `next t`, it is one of these and `t` is this state. And the
small lemmas of `performAll` and `streamed`. -/

namespace Sys2Proof.Machine

/-- A CMD write that answers ran its command, or was illegal and only raised `EILL` (R87, R222). -/
theorem execute_next {w : Word} {s t : State} (h : execute w s = .next t) :
    (∃ i, decode w = .ok i ∧ exec i s = .next t) ∨ ∃ e, decode w = .error e ∧ t = raise .eill s := by
  unfold execute at h
  split at h
  · exact .inl ⟨_, ‹_›, h⟩
  · exact .inr ⟨_, ‹_›, by cases h; rfl⟩

theorem regAt_eq_cmd {off : Nat} : regAt off = some .cmd ↔ off = 0x00 := by
  constructor
  · intro h; unfold regAt at h; split at h <;> simp_all
  · rintro rfl; rfl

theorem regAt_eq_arg {off : Nat} : regAt off = some .arg ↔ off = 0x04 := by
  constructor
  · intro h; unfold regAt at h; split at h <;> simp_all
  · rintro rfl; rfl

/-- A transaction that answers: a CMD write, an ARG write, an ignored write, a read, or reset (R66, R240). -/
theorem perform_next {x : Txn} {s t : State} (h : perform x s = .next t) :
    (∃ w, x = .write 0x00 w ∧ execute w s = .next t) ∨ (∃ v, x = .write 0x04 v ∧ t = { s with arg := v }) ∨
    (∃ off v, x = .write off v ∧ off ≠ 0x00 ∧ off ≠ 0x04 ∧ t = s) ∨
    (∃ off, x = .read off ∧ t = { s with returned := s.returned ++ [hostRead off s] }) ∨
    (x = .reset ∧ t = resetBlock s) := by
  cases x with
  | reset => cases h; simp
  | read off =>
    simp only [perform] at h
    split at h
    · cases h; simp
    · cases h
  | write off v =>
    simp only [perform] at h
    split at h
    · unfold hostWrite at h
      split at h
      · rename_i hr; rw [regAt_eq_cmd] at hr; subst hr; exact .inl ⟨v, rfl, h⟩
      · rename_i hr; rw [regAt_eq_arg] at hr; subst hr; exact .inr (.inl ⟨v, rfl, by cases h; rfl⟩)
      · rename_i hc ha
        exact .inr (.inr (.inl ⟨off, v, rfl, fun e => hc (regAt_eq_cmd.2 e), fun e => ha (regAt_eq_arg.2 e),
          by cases h; rfl⟩))
    · cases h

@[simp] theorem performAll_nil (s : State) : performAll [] s = .next s := rfl

theorem performAll_cons_next {x : Txn} {xs : List Txn} {s t : State} (h : perform x s = .next t) :
    performAll (x :: xs) s = performAll xs t := by
  simp only [performAll, h]

@[simp] theorem streamed_nil (bytes : State → Instr → Option Key) (s : State) : streamed bytes [] s = some [] := rfl

/-- A run streams the bytes of its first transaction and then those of the rest. -/
theorem streamed_cons_next {bytes : State → Instr → Option Key} {x : Txn} {xs : List Txn} {s t : State} {bs : Key}
    (hb : txnBytes bytes x s = some bs) (h : perform x s = .next t) :
    streamed bytes (x :: xs) s = (streamed bytes xs t).map (bs ++ ·) := by
  simp only [streamed, hb, h]

end Sys2Proof.Machine
end

