-- ==== Sys2Proof/Tests/Slice0.lean ====
section
/-! SUPPORT. The model's own tests: ill-formed terms, the word of every command, at most two vectors of
95_test_vectors.md per command (expected values are the spec's), and for every statement with hypotheses a state that
meets them. -/

namespace Sys2Proof.Tests

open Sys2Proof.Machine

/-! ### Small states -/

/-- The reset state with a key loaded, its bytes at positions 0, 1, 2, ... -/
def keyed (k : Key) : State :=
  { State.reset with keylen := BitVec.ofNat 32 k.length, keybuf := (List.range k.length).zip k }

/-- A live table with a key loaded. -/
def table (sel : Hasher) (n : Word) (chains : List (Nat × List Key)) (size : Word) (k : Key) : State :=
  { keyed k with tvalid := true, hsel := sel, buckets := n, chains := chains, size := size }

def hello : Key := [0x68, 0x65, 0x6C, 0x6C, 0x6F]
def foo : Key := [0x66, 0x6F, 0x6F]
def bar : Key := [0x62, 0x61, 0x72]
def world : Key := [0x77, 0x6F, 0x72, 0x6C, 0x64]
def he11o : Key := [0x48, 0x65, 0x31, 0x31, 0x6F]

/-- Vector T1: an empty FNV table of 7 buckets. -/
def t1 (k : Key) : State := table .fnv 7 [] 0 k

/-- Vector T4: "hello" in bucket 2 of 7. -/
def t4 (k : Key) : State := table .fnv 7 [(2, [hello])] 1 k

/-- Vector T8: "hello", "foo", "hello" in bucket 2 of 7. -/
def t8 (k : Key) : State := table .fnv 7 [(2, [hello, foo, hello])] 3 k

/-- Vector T12: "world" in bucket 0 and "hello", "foo", "bar" in bucket 2 of 7. -/
def t12 : State := table .fnv 7 [(0, [world]), (2, [hello, foo, bar])] 4 []

/-- What a function of the next state gives, if the answer is a next state. -/
def value {α : Type} (f : State → α) : Result → Option α
  | .next t => some (f t)
  | _ => none

/-- The refusal of an answer. -/
def refusal : Result → Option Refusal
  | .refused r => some r
  | _ => none

/-- The error of a decoding. -/
def errorOf : Except DecodeError Instr → Option DecodeError
  | .error e => some e
  | .ok _ => none

/-- The Murmur registers. -/
def mur (s : State) : Word × Word × Word := (s.murH, s.murTail, s.murLen)

/-- The reset state with other Murmur registers. -/
def murState (h t len arg : Word) : State := { State.reset with murH := h, murTail := t, murLen := len, arg := arg }

/-! ### Well-formedness: each check refuses an ill-formed term (R66, R6) -/

theorem test_wf_write_misaligned : Txn.wf (.write 0x05 0) = false := by decide
theorem test_wf_write_past_end : Txn.wf (.write 0x100 0) = false := by decide
theorem test_wf_read_misaligned : Txn.wf (.read 0x0A) = false := by decide
theorem test_wf_read_past_end : Txn.wf (.read 0x104) = false := by decide
theorem test_wf_offset_first_and_last : Txn.wf (.read 0x00) = true ∧ Txn.wf (.write 0xFC 1) = true := by decide
theorem test_wf_keyMax_zero : Config.wf ⟨0, 1, 1⟩ = false := by decide
theorem test_wf_keyMax_large : Config.wf ⟨2 ^ 31, 1, 1⟩ = false := by decide
theorem test_wf_maxBuckets_zero : Config.wf ⟨1, 0, 1⟩ = false := by decide
theorem test_wf_maxBuckets_large : Config.wf ⟨1, 2 ^ 31, 1⟩ = false := by decide
theorem test_wf_maxEntries_zero : Config.wf ⟨1, 1, 0⟩ = false := by decide
theorem test_wf_maxEntries_large : Config.wf ⟨1, 1, 2 ^ 32⟩ = false := by decide
theorem test_wf_config_bounds :
    Config.wf ⟨1, 1, 1⟩ = true ∧ Config.wf ⟨2 ^ 31 - 1, 2 ^ 31 - 1, 2 ^ 32 - 1⟩ = true := by decide
/-- A command's operands cannot be out of range: the type holds no such term. -/
theorem test_wf_instr : Instr.wf (.keyPush 0xFF) = true ∧ Instr.wf (.tblInit .mur) = true := by decide

/-! ### The word of every command (R84; vectors E1 to E13) -/

theorem test_decode_nop : decode 0x00000000 = .ok .nop := by decide
theorem test_decode_clrErr : decode 0x00000001 = .ok .clrErr := by decide
theorem test_decode_keyClr : decode 0x00000010 = .ok .keyClr := by decide
theorem test_decode_keyPush : decode 0x00004811 = .ok (.keyPush 0x48) := by decide
theorem test_decode_keyPushw : decode 0x00000012 = .ok .keyPushw := by decide
theorem test_decode_fnvInit : decode 0x00000020 = .ok .fnvInit := by decide
theorem test_decode_fnvByte : decode 0x0000FF21 = .ok (.fnvByte 0xFF) := by decide
theorem test_decode_fnvFinal : decode 0x00000022 = .ok .fnvFinal := by decide
theorem test_decode_fnvKey : decode 0x00000023 = .ok .fnvKey := by decide
theorem test_decode_murInit : decode 0x00000030 = .ok .murInit := by decide
theorem test_decode_murByte : decode 0x00006131 = .ok (.murByte 0x61) := by decide
theorem test_decode_murBlock : decode 0x00000032 = .ok .murBlock := by decide
theorem test_decode_murFinal : decode 0x00000033 = .ok .murFinal := by decide
theorem test_decode_murKey : decode 0x00000034 = .ok .murKey := by decide
theorem test_decode_tblInit : decode 0x00000040 = .ok (.tblInit .fnv) ∧ decode 0x00000140 = .ok (.tblInit .mur) := by
  decide
theorem test_decode_tblDiscard : decode 0x00000041 = .ok .tblDiscard := by decide
theorem test_decode_tblAdd : decode 0x00000042 = .ok .tblAdd := by decide
theorem test_decode_tblContains : decode 0x00000043 = .ok .tblContains := by decide
theorem test_decode_tblRemove : decode 0x00000044 = .ok .tblRemove := by decide
theorem test_decode_tblDist : decode 0x00000045 = .ok .tblDist := by decide
theorem test_decode_tblColl : decode 0x00000046 = .ok .tblColl := by decide
theorem test_decode_tblSize : decode 0x00000047 = .ok .tblSize := by decide
theorem test_decode_illegal_E6_E7_E13 : errorOf (decode 0x00000002) = some (.unassignedOpcode 0x02) ∧
    errorOf (decode 0x000000FF) = some (.unassignedOpcode 0xFF) ∧
    errorOf (decode 0x00000148) = some (.unassignedOpcode 0x48) := by decide
theorem test_decode_illegal_E8_to_E12 : errorOf (decode 0x00000100) = some (.reservedBitsSet 0x00) ∧
    errorOf (decode 0x00010011) = some (.reservedBitsSet 0x11) ∧
    errorOf (decode 0x00000240) = some (.reservedBitsSet 0x40) ∧
    errorOf (decode 0x00000123) = some (.reservedBitsSet 0x23) ∧
    errorOf (decode 0x80000042) = some (.reservedBitsSet 0x42) := by decide
theorem test_decodeTableWord : decodeTableWord 32 0x00004811 = some (.keyPush 0x48) ∧
    decodeTableWord 16 0x4811 = some (.keyPush 0x48) ∧ decodeTableWord 32 0x00000002 = none := by decide

/-! ### Arithmetic (vectors A4 to A24, MK6, MF1, MX4) -/

theorem test_abs32 : abs32 0x80000000 = 0x80000000 ∧ abs32 0xFFFFFFFF = 1 ∧ abs32 0xE40C292C = 0x1BF3D6D4 := by decide
theorem test_rotl32 : rotl32 0xCC9E2D51 15 = 0x16A8E64F ∧ rotl32 0x12345678 13 = 0x8ACF0246 := by decide
theorem test_lsr32_add32 : lsr32 0x80000000 16 = 0x00008000 ∧ add32 0xFFFFFFFF 0xE6546B64 = 0xE6546B63 := by decide
theorem test_umod : umod 0x80000000 7 = 2 ∧ umod 0x3A2B5D69 7 = 5 := by decide
theorem test_mixk : mixk 0x00636261 = 0xA7349DB7 ∧ mixk 0xFFFFFFFF = 0xBBEEB010 := by decide
theorem test_murFold : murFold 0x00000100 0x31316548 = 0x079B26B4 := by decide
theorem test_fmix32 : fmix32 0x7427F6CF = 0xC3728DD4 ∧ fmix32 0x80000000 = 0x6D3C65A0 := by decide

/-! ### Control and key buffer (vectors K1 to K12) -/

theorem test_nop_K1 :
    value statusWord (exec .nop { State.reset with err := 2, errs := true }) = some 0x00000010 := by decide
theorem test_clrErr_K3 :
    value statusWord (exec .clrErr
      { State.reset with err := 2, errs := true, tvalid := true, hsel := .mur, digest := 0x80000000 }) =
    some 0x000000E0 := by decide
theorem test_keyClr_K4 : value (fun t => (t.keylen, currentKey t)) (exec .keyClr (keyed he11o)) = some (0, some []) := by
  decide
theorem test_keyPush_K5_K6 :
    value currentKey (exec (.keyPush 0x48) (keyed [])) = some (some [0x48]) ∧
    value currentKey (exec (.keyPush 0x00) (keyed [0x48])) = some (some [0x48, 0x00]) := by decide
theorem test_keyPush_K8 :
    value (fun t => (t.err, t.errs, t.keylen)) (exec (.keyPush 0x41) { State.reset with keylen := 64 }) =
    some (6, true, 64) := by decide
theorem test_keyPushw_K10 :
    value currentKey (exec .keyPushw { keyed [0x61] with arg := 0x04030201 }) =
    some (some [0x61, 0x01, 0x02, 0x03, 0x04]) := by decide
theorem test_keyPushw_K11_K12 :
    value (fun t => (t.err, t.keylen)) (exec .keyPushw { State.reset with keylen := 60 }) = some (0, 64) ∧
    value (fun t => (t.err, t.keylen)) (exec .keyPushw { State.reset with keylen := 61 }) = some (6, 61) := by decide

/-! ### FNV1a Hasher (vectors FS, F) -/

theorem test_fnvInit : value State.fnvAcc (exec .fnvInit { State.reset with fnvAcc := 5 }) = some 0x811C9DC5 := by decide
theorem test_fnvByte_FS3 : value State.fnvAcc (exec (.fnvByte 0xFF) State.reset) = some 0x7A0B824E := by decide
theorem test_fnvByte_FS6 :
    value State.fnvAcc (exec (.fnvByte 0xFF) { State.reset with fnvAcc := 0xFFFFFFFF }) = some 0xFFFE6D00 := by decide
theorem test_fnvFinal_F1 :
    value (fun t => (t.digest, t.fnvAcc)) (exec .fnvFinal State.reset) = some (0x7EE3623B, 0x811C9DC5) := by decide
theorem test_fnvKey_F6 :
    value (fun t => (t.digest, t.fnvAcc)) (exec .fnvKey (keyed he11o)) = some (0x3A2B5D69, 0x3A2B5D69) := by decide
theorem test_fnvKey_F9 :
    value (fun t => (t.digest, minneg t)) (exec .fnvKey (keyed [0x3B, 0x4B, 0x24, 0x32, 0x35])) =
    some (0x80000000, true) := by decide

/-! ### Murmur Hasher (vectors MS, M) -/

theorem test_murInit_MS1 : value mur (exec .murInit (murState 1 2 3 0)) = some (0x00000100, 0, 0) := by decide
theorem test_murByte_MS5 :
    value mur (exec (.murByte 0x64) (murState 0x00000100 0x00636261 3 0)) = some (0x8607049E, 0, 4) := by decide
theorem test_murByte_MS11_MS12 :
    value (fun t => (mur t, t.err)) (exec (.murByte 0x55) (murState 0x00000100 0x00AABBCC 0xFFFFFFFF 0)) =
      some ((0x00000100, 0x00AABBCC, 0xFFFFFFFF), 10) ∧
    value (fun t => (mur t, t.err)) (exec (.murByte 0x33) (murState 0x00000100 0x00002211 0xFFFFFFFE 0)) =
      some ((0x00000100, 0x00332211, 0xFFFFFFFF), 0) := by decide
theorem test_murBlock_MS8 :
    value mur (exec .murBlock (murState 0x00000100 0 0 0x64636261)) = some (0x8607049E, 0, 4) := by decide
theorem test_murBlock_X4_MS13 :
    value State.err (exec .murBlock (murState 0x00000100 1 0xFFFFFFFD 0)) = some 9 ∧
    value State.err (exec .murBlock (murState 0x00000100 0 0xFFFFFFFC 0)) = some 10 := by decide
theorem test_murFinal_MS7 :
    value State.digest (exec .murFinal (murState 0x8607049E 0x00000065 5 0)) = some 0x3B661518 := by decide
theorem test_murFinal_RS2 : value State.digest (exec .murFinal State.reset) = some 0x4570315F := by decide
theorem test_murKey_M6 :
    value (fun t => (mur t, t.digest)) (exec .murKey (keyed he11o)) =
    some ((0x079B26B4, 0x0000006F, 5), 0x3C8D722C) := by decide
theorem test_murKey_M13 :
    value (fun t => (mur t, t.digest)) (exec .murKey (keyed [0x66, 0x5F, 0xEA, 0xDD])) =
    some ((0x7EC69364, 0, 4), 0x80000000) := by decide

/-! ### Chained Hash Table (vectors T, X) -/

theorem test_tblInit_T2 :
    value (fun t => (statusWord t, t.buckets)) (exec (.tblInit .mur) { State.reset with arg := 7 }) =
    some (0x00000060, 7) := by decide
theorem test_tblInit_T16_T18_X1 :
    value State.err (exec (.tblInit .fnv) State.reset) = some 3 ∧
    value State.err (exec (.tblInit .fnv) { State.reset with arg := 65537 }) = some 3 ∧
    value State.err (exec (.tblInit .fnv) (t1 [])) = some 5 := by decide
theorem test_tblDiscard_T21 :
    value (fun t => (statusWord t, t.buckets, t.size)) (exec .tblDiscard (t4 hello)) = some (0, 0, 0) ∧
    value State.chains (exec .tblDiscard (t4 hello)) = some [] := by decide
theorem test_tblAdd_T4 :
    value (fun t => (t.digest, t.idx, t.size)) (exec .tblAdd (t1 hello)) = some (0x4F9F2CAB, 2, 1) ∧
    value State.chains (exec .tblAdd (t1 hello)) = some [(2, [hello])] := by decide
theorem test_tblAdd_T22 :
    value (fun t => (mur t, t.idx, t.fnvAcc)) (exec .tblAdd (table .mur 7 [] 0 hello)) =
    some ((0xEFB3EFCD, 0x0000006F, 5), 3, 0x811C9DC5) := by decide
theorem test_tblContains_T5_T7 :
    value (fun t => (t.result, t.idx)) (exec .tblContains (t4 hello)) = some (1, 2) ∧
    value (fun t => (t.result, t.idx)) (exec .tblContains (t4 foo)) = some (0, 2) := by decide
theorem test_tblRemove_T8 :
    value (fun t => (t.result, t.size)) (exec .tblRemove (t8 hello)) = some (1, 2) ∧
    value State.chains (exec .tblRemove (t8 hello)) = some [(2, [foo, hello])] := by decide
theorem test_tblRemove_T9 :
    value (fun t => (statusWord t, t.result, t.digest, t.idx)) (exec .tblRemove (t1 [0x78])) =
    some (0x00000032, 0, 0x02F3AF79, 0) := by decide
theorem test_tblDist_T10_T11 :
    value State.result (exec .tblDist { t4 [] with arg := 2 }) = some 1 ∧
    value State.err (exec .tblDist { t4 [] with arg := 7 }) = some 8 := by decide
theorem test_tblColl_T12 : value State.result (exec .tblColl t12) = some 2 := by decide
theorem test_tblSize_T13 : value State.result (exec .tblSize t12) = some 4 := by decide

/-! ### The port and reset (vectors E6, X6 to X11, RS1, RS4) -/

theorem test_illegal_X6 :
    value statusWord (step ({ t1 [] with err := 2, errs := true }.withFetchWord 32 0x00000002)) =
    some 0x00000031 := by decide
theorem test_write_status_X7 : value State.err (perform (.write 0x08 0xFFFFFFFF) State.reset) = some 0 := by decide
theorem test_read_map_RS1 : ([0x00, 0x18, 0x1C, 0x34, 0x38, 0x3C, 0x40, 0x44, 0xFC].map fun a => hostRead a State.reset) =
    [0, 0x811C9DC5, 0x00000100, 0x4E434846, 64, 65536, 65536, 0, 0] := by decide
theorem test_read_offset_order : (t12.port = []) ∧
    value State.returned (perform (.read 0x30) t12) = some [4] ∧
    value State.returned (perform (.read 0x2C) t12) = some [7] := by decide
theorem test_refused_offset : refusal (perform (.read 0x02) State.reset) = some (.portAccess 0x02) := by decide
theorem test_reset_RS4 : value statusWord (perform .reset t12) = some 0 := by decide
theorem test_idValue_ascii : portByte 0x37 State.reset = 0x4E ∧ portByte 0x34 State.reset = 0x46 := by decide
theorem test_step_from_reset : value State.keylen (step (State.reset.withFetchWord 32 0x00004811)) = some 1 := by decide

/-! ### Witnesses: for every statement with hypotheses, a state and operands that meet them -/

/-- The invariant as a computation. -/
def invCheck (s : State) : Bool :=
  decide (s.cfg.wf = true) && decide (s.err.toNat ≤ 10 ∧ (s.err ≠ 0 → s.errs = true)) &&
  decide (s.digest.getLsbD 31 = true → s.digest = 0x80000000#32) &&
  decide (s.keylen.toNat ≤ s.cfg.keyMax ∧ s.keybuf.map Prod.fst = List.range s.keylen.toNat) &&
  decide (lsr32 s.murTail (8 * (s.murLen.toNat % 4)) = 0) &&
  decide ((s.tvalid = true → 1 ≤ s.buckets.toNat ∧ s.buckets.toNat ≤ s.cfg.maxBuckets) ∧
    (s.tvalid = false → s.buckets = 0 ∧ s.size = 0 ∧ s.hsel = .fnv ∧ s.chains = [])) &&
  decide (chainsWf s.chains = true ∧ ∀ e ∈ s.chains, e.1 < s.buckets.toNat) &&
  decide (s.size.toNat = entryCount s.chains s.buckets.toNat ∧ s.size.toNat ≤ s.cfg.maxEntries) &&
  decide (∀ e ∈ s.chains, ∀ k ∈ e.2,
    k.length ≤ s.cfg.keyMax ∧ (hashOf s.hsel k).toNat % s.buckets.toNat = e.1)

theorem inv_of_check {s : State} (h : invCheck s = true) : Inv s := by
  simp only [invCheck, Bool.and_eq_true, decide_eq_true_eq] at h
  obtain ⟨⟨⟨⟨⟨⟨⟨⟨h1, h2⟩, h3⟩, h4⟩, h5⟩, h6⟩, h7⟩, h8⟩, h9⟩ := h
  exact ⟨h1, h2, h3, h4, h5, h6, h7, h8, h9⟩

theorem inv_t1 : Inv (t1 hello) := inv_of_check (by decide)
theorem inv_t4 : Inv (t4 hello) := inv_of_check (by decide)
theorem inv_t8 : Inv (t8 hello) := inv_of_check (by decide)
theorem inv_t12 : Inv t12 := inv_of_check (by decide)
theorem inv_mur_table : Inv (table .mur 7 [(3, [hello])] 1 hello) := inv_of_check (by decide)

/-- DecodeOfEncodeIsTheCommand: operands at both ends of their fields. -/
theorem wit_decodeOfEncode : Instr.wf (.keyPush 0x00) = true ∧ Instr.wf (.murByte 0xFF) = true ∧
    Instr.wf (.tblInit .fnv) = true ∧ Instr.wf .tblSize = true := by decide

/-- IllegalWordsExecuteNothing: an illegal word of each kind. -/
theorem wit_illegalWords : (∃ e, decode 0x00000002 = .error e) ∧ (∃ e, decode 0x00000100 = .error e) ∧
    (∃ e, decode 0x00010011 = .error e) ∧ ∃ e, decode 0x00000240 = .error e :=
  ⟨⟨_, rfl⟩, ⟨_, rfl⟩, ⟨_, rfl⟩, ⟨_, rfl⟩⟩

/-- StepRunsTheDecodedCommand. -/
theorem wit_step : decode 0x00000023 = .ok .fnvKey ∧
    ({ keyed he11o with port := [.write 0x00 0x00000023, .read 0x10] } : State).port =
      .write 0x00 0x00000023 :: [.read 0x10] := by decide

/-- PortTransactionEffects: the first, the second and the last offset, written and read. -/
theorem wit_portTransactions : ∀ off ∈ [0x00, 0x04, 0x08, 0x40, 0x44, 0xFC], off % 4 = 0 ∧ off ≤ 0xFC ∧
    ({ State.reset with port := [.write off 1] } : State).port = .write off 1 :: [] ∧
    ({ State.reset with port := [.read off] } : State).port = .read off :: [] := by decide

/-- ReadsHaveNoSideEffect: the first and last offsets of its clauses. -/
theorem wit_reads : (∀ off ∈ [0x00, 0xFC], off % 4 = 0 ∧ off ≤ 0xFC) ∧
    ∀ off ∈ [0x08, 0xFC], off % 4 = 0 ∧ off ≤ 0xFC ∧ off ≠ 0x00 ∧ off ≠ 0x04 := by decide

/-- PortRefusesOtherOffsets: the offsets next to the port's. -/
theorem wit_refused : ∀ off ∈ [0x01, 0x03, 0xFD, 0x100], (off % 4 ≠ 0 ∨ off > 0xFC) ∧
    ({ State.reset with port := [.write off 1] } : State).port = .write off 1 :: [] ∧
    ({ State.reset with port := [.read off] } : State).port = .read off :: [] := by decide

/-- IdleBlockDoesNothing. -/
theorem wit_idle : State.reset.port = [] := rfl

/-- OnlyResetAndClrErrClearErrs, and the last clause of ClrErrClearsTheFlags. -/
theorem wit_clearErrs : ∀ x ∈ [Txn.reset, .write 0x00 0x00000001],
    ({ State.reset with errs := true } : State).errs = true ∧
    value State.errs (perform x { State.reset with errs := true }) = some false ∧
    value State.errs (exec .clrErr { State.reset with errs := true }) = some false := by decide

/-- ResetMeetsTheInvariant: the smallest and the largest configuration. -/
theorem wit_configs : Config.wf ⟨1, 1, 1⟩ = true ∧ Config.wf ⟨2 ^ 31 - 1, 2 ^ 31 - 1, 2 ^ 32 - 1⟩ = true := by decide

/-- EveryStepKeepsTheInvariant and NoCommandStopsTheBlock: a live table, the step adding a key. -/
theorem wit_invariantStep : Inv ((t8 hello).withFetchWord 32 0x00000042) ∧
    ∃ t, step ((t8 hello).withFetchWord 32 0x00000042) = .next t :=
  ⟨inv_of_check (by decide), _, rfl⟩

/-- NoCommandReadsTheFlags, CommandsWriteOnlyTheirState: a command that answers, one that fails, and CLR_ERR. -/
theorem wit_execAnswers : (∃ t, exec .tblRemove (t8 hello) = .next t) ∧
    value State.err (exec .tblRemove (t8 bar)) = some 2 ∧ ∃ t, exec .clrErr (t8 hello) = .next t :=
  ⟨⟨_, rfl⟩, by decide, _, rfl⟩

/-- KeyPushAppendsItsByte: one byte of room, and none. -/
theorem wit_keyPush : (State.reset.keylen.toNat < State.reset.cfg.keyMax) ∧
    ({ State.reset with keylen := 63 } : State).keylen.toNat < State.reset.cfg.keyMax ∧
    ({ State.reset with keylen := 64 } : State).keylen.toNat = State.reset.cfg.keyMax := by decide

/-- KeyPushwAppendsFourBytes: exactly four bytes of room, and three. -/
theorem wit_keyPushw : ({ State.reset with keylen := 60 } : State).keylen.toNat + 4 ≤ State.reset.cfg.keyMax ∧
    ({ State.reset with keylen := 61 } : State).keylen.toNat + 4 > State.reset.cfg.keyMax := by decide

/-- KeysAreLoadedByteByByte: a key of KEY_MAX bytes, room for exactly four bytes, and a key one byte too long. -/
theorem wit_keysLoaded : State.reset.cfg.wf = true ∧ (List.replicate 64 (0x41 : Byte)).length ≤ State.reset.cfg.keyMax ∧
    (keyed (List.replicate 60 0x41)).keylen.toNat + 4 ≤ State.reset.cfg.keyMax ∧
    currentKey (keyed (List.replicate 60 0x41)) = some (List.replicate 60 0x41) ∧
    State.reset.cfg.keyMax < (List.replicate 65 (0x41 : Byte)).length := by decide

/-- MemReadGivesWhatMemWriteWrote: one byte and four bytes at the end of the key. -/
theorem wit_memWrite : (∃ t, memWrite (keyed he11o) 4 1 0x99 = some t) ∧ 4 + 1 ≤ (keyed he11o).keylen.toNat ∧
    (∃ t, memWrite (keyed he11o) 1 4 0x04030201 = some t) ∧ 1 + 4 ≤ (keyed he11o).keylen.toNat :=
  ⟨⟨_, rfl⟩, by decide, ⟨_, rfl⟩, by decide⟩

/-- BytesPastKeylenAreUnobservable: a buffer with one more byte after the key. -/
theorem wit_bytesPast : (∀ p, p < (keyed [0x61]).keylen.toNat →
    Memory.read [(0, 0x61), (1, 0x55)] p = Memory.read (keyed [0x61]).keybuf p) ∧
    ∃ t, exec (.keyPush 0x62) (keyed [0x61]) = .next t := ⟨by decide, _, rfl⟩

/-- FnvMultiplyStageFacts: two accumulators that differ. -/
theorem wit_fnvByte : (∃ t, exec (.fnvByte 0x61) State.reset = .next t) ∧
    (∃ t, exec (.fnvByte 0x61) { State.reset with fnvAcc := 0 } = .next t) ∧ State.reset.fnvAcc ≠ 0 :=
  ⟨⟨_, rfl⟩, ⟨_, rfl⟩, by decide⟩

/-- FnvFinalGivesTheAbsoluteValue and MurFinalGivesTheDigest: a state that answers, with the edge case of each core
(vectors FS7, M13) and pending bytes that meet R35 (vector M6). -/
theorem wit_final : (∃ t, exec .fnvFinal { State.reset with fnvAcc := 0x80000000 } = .next t) ∧
    (∃ t, exec .murFinal (murState 0x7EC69364 0 4 0) = .next t) ∧ murRawOf 0x7EC69364 0 4 = 0x80000000#32 ∧
    MurInv (murState 0x079B26B4 0x0000006F 5 0) :=
  ⟨⟨_, rfl⟩, ⟨_, rfl⟩, by decide, by unfold MurInv; decide⟩

/-- FnvKeyHashesTheKey and MurKeyHashesTheKey: the empty key, a short key, a key of KEY_MAX bytes. -/
theorem wit_currentKey : currentKey State.reset = some [] ∧ currentKey (keyed he11o) = some he11o ∧
    currentKey (keyed (List.replicate 64 0xFF)) = some (List.replicate 64 0xFF) := by decide

/-- StreamedFnvSurvivesOtherCommands: between two bytes, a table command on a live Murmur table, an ARG write, a read, an
illegal word and commands of three other families. -/
theorem wit_streamedFnv : Inv (table .mur 7 [(3, [hello])] 1 hello) ∧
    (∀ x ∈ [lineCmd (.fnvByte 0x61), lineCmd .tblContains, lineArg 3, lineRd .result, .write 0x00 0x02, lineCmd .keyClr,
      lineCmd .murInit, lineCmd (.fnvByte 0x62)], x.wf = true) ∧
    streamed fnvBytes [lineCmd (.fnvByte 0x61), lineCmd .tblContains, lineArg 3, lineRd .result, .write 0x00 0x02,
      lineCmd .keyClr, lineCmd .murInit, lineCmd (.fnvByte 0x62)]
      { table .mur 7 [(3, [hello])] 1 hello with fnvAcc := 0x811C9DC5, err := 0 } = some [0x61, 0x62] :=
  ⟨inv_mur_table, by decide, by decide⟩

/-- On a live FNV table a table command breaks a streamed FNV hash, and leaves a streamed Murmur hash (R244 (a)). -/
theorem test_streamed_breaks : streamed fnvBytes [lineCmd .tblContains] (t4 hello) = none ∧
    streamed murBytes [lineCmd .tblContains] (t4 hello) = some [] ∧
    streamed fnvBytes [.reset] (t4 hello) = none := by decide

/-- DigestIsNonNegativeButForTheEdgeCase: keys on both sides, for both hashers (vectors F1, F9, M1, M13). -/
theorem wit_edgeCase : fnv1aRaw [] ≠ 0x80000000 ∧ fnv1aRaw [0x3B, 0x4B, 0x24, 0x32, 0x35] = 0x80000000 ∧
    murmurRaw [] ≠ 0x80000000 ∧ murmurRaw [0x66, 0x5F, 0xEA, 0xDD] = 0x80000000 := by decide

/-- MurByteAddsItsByte: its three clauses, at the ends of their ranges. -/
theorem wit_murByte : ((murState 0 0 0 0).murLen ≠ 0xFFFFFFFF#32 ∧ (murState 0 0 0 0).murLen.toNat % 4 ≠ 3) ∧
    ((murState 0 0 0xFFFFFFFE 0).murLen ≠ 0xFFFFFFFF#32 ∧ (murState 0 0 0xFFFFFFFE 0).murLen.toNat % 4 ≠ 3) ∧
    ((murState 0 0 0xFFFFFFFB 0).murLen ≠ 0xFFFFFFFF#32 ∧ (murState 0 0 0xFFFFFFFB 0).murLen.toNat % 4 = 3) ∧
    (murState 0 0 0xFFFFFFFF 0).murLen = 0xFFFFFFFF#32 := by decide

/-- MurBlockFoldsOneBlock: the last block that fits, the first that does not, and off a boundary. -/
theorem wit_murBlock : MurInv (murState 0 0 0xFFFFFFF8 0) ∧
    ((murState 0 0 0xFFFFFFF8 0).murLen.toNat % 4 = 0 ∧ (murState 0 0 0xFFFFFFF8 0).murLen.toNat ≤ 0xFFFFFFFB) ∧
    (murState 0 0 0xFFFFFFFD 0).murLen.toNat % 4 ≠ 0 ∧
    ((murState 0 0 0xFFFFFFFC 0).murLen.toNat % 4 = 0 ∧ (murState 0 0 0xFFFFFFFC 0).murLen.toNat > 0xFFFFFFFB) :=
  ⟨by unfold MurInv; decide, by decide, by decide, by decide⟩

/-- StreamedMurmurIsMurmur: "He11o" as one MUR_BLOCK and one MUR_BYTE, with a table command on a live FNV table and a read
between them. -/
theorem wit_streamedBlocks : Inv (t4 hello) ∧
    (∀ x ∈ [lineArg 0x31316548, lineCmd .murBlock, lineCmd .tblAdd, lineRd .digest, lineCmd (.murByte 0x6F)],
      x.wf = true) ∧
    streamed murBytes [lineArg 0x31316548, lineCmd .murBlock, lineCmd .tblAdd, lineRd .digest, lineCmd (.murByte 0x6F)]
      { t4 hello with murH := 0x00000100, murTail := 0, murLen := 0, err := 0 } = some he11o ∧
    he11o.length ≤ 2 ^ 32 - 1 := ⟨inv_t4, by decide, by decide, by simp [he11o]⟩

/-- StreamedMurmurIsMurmur and TrailingZeroBytesChangeTheRawHash: "a" followed by one and by two
zero bytes, the most its block has room for below a full one. -/
theorem wit_streamedMurmur : he11o.length ≤ 2 ^ 32 - 1 ∧
    ∀ n ∈ [1, 2], 0 < n ∧ (([0x61] : Key).length + n) / 4 = ([0x61] : Key).length / 4 ∧
      ([0x61] : Key).length + n ≤ 2 ^ 32 - 1 :=
  ⟨by simp [he11o], by simp⟩

/-- TblInitCreatesAnEmptyTable: the least and the greatest legal count, a live table, and the illegal counts. -/
theorem wit_tblInit : (State.reset.tvalid = false ∧ (∀ a ∈ [(1 : Word), 65536],
      1 ≤ ({ State.reset with arg := a } : State).arg.toNat ∧
      ({ State.reset with arg := a } : State).arg.toNat ≤ State.reset.cfg.maxBuckets)) ∧
    (t1 []).tvalid = true ∧ State.reset.arg = 0 ∧
    ({ State.reset with arg := 65537 } : State).arg.toNat > State.reset.cfg.maxBuckets := by
  simp [State.reset, State.resetWith, Config.reference, t1, table]

/-- TblAddAppendsTheKey, TblContainsSearchesOneChain, TblRemoveDeletesTheFirstMatch: a live table, its key present. -/
theorem wit_tableKey : (t8 hello).tvalid = true ∧ chainsWf (t8 hello).chains = true ∧
    (t8 hello).size.toNat ≠ (t8 hello).cfg.maxEntries ∧ currentKey (t8 hello) = some hello ∧
    hello ∈ chainOf (t8 hello).chains (bucketOf hello (t8 hello)) := by decide

/-- TblAddAppendsTheKey, TblRemoveDeletesTheFirstMatch: a full store, an absent key, no table. -/
theorem wit_tableFails : ({ t8 hello with cfg := ⟨64, 7, 3⟩ } : State).size.toNat = 3 ∧
    (currentKey (t4 foo) = some foo ∧ foo ∉ chainOf (t4 foo).chains (bucketOf foo (t4 foo))) ∧
    State.reset.tvalid = false := by decide

/-- TblDistGivesAChainLength, TblDiscardDropsTheTable, TblCollSumsTheCollisions, TblSizeGivesTheSize: the last bucket and
the first number past it; a table that is not empty, and no table. -/
theorem wit_tblDist : Inv { t12 with arg := 6 } ∧ Inv State.reset ∧ t12.tvalid = true ∧ 1 ≤ t12.size.toNat ∧
    State.reset.tvalid = false ∧
    ({ t12 with arg := 6 } : State).arg.toNat < t12.buckets.toNat ∧
    t12.buckets.toNat ≤ ({ t12 with arg := 7 } : State).arg.toNat :=
  ⟨inv_of_check (by decide), inv_of_check (by decide), by decide⟩

/-- BucketIndexIsInRange: the three commands that hash, the edge-case key among them (vector T23). -/
theorem wit_bucketIndex : ∀ i ∈ [Instr.tblAdd, .tblContains, .tblRemove], hashesTheKey i = true ∧
    (t1 [0x3B, 0x4B, 0x24, 0x32, 0x35]).buckets ≠ 0 ∧ (t1 []).size.toNat ≠ (t1 []).cfg.maxEntries ∧
    value State.digest (exec i (t1 [0x3B, 0x4B, 0x24, 0x32, 0x35])) = some 0x80000000 := by decide

/-- CollisionCountLaws and CopiesOfAKeyAreCounted: an add and a remove that succeed, to an empty and a long chain. -/
theorem wit_collisions : Inv (t1 hello) ∧ Inv (t8 hello) ∧ currentKey (t1 hello) = some hello ∧
    currentKey (t8 hello) = some hello ∧ value State.err (exec .tblAdd (t1 hello)) = some 0 ∧
    value State.err (exec .tblAdd (t8 hello)) = some 0 ∧ value State.err (exec .tblRemove (t8 hello)) = some 0 ∧
    value State.err (exec .tblRemove (t4 hello)) = some 0 ∧ (∃ t, exec .tblContains (t8 hello) = .next t) :=
  ⟨inv_t1, inv_t8, by decide, by decide, by decide, by decide, by decide, by decide, _, rfl⟩

/-- OneBucketCollisions: "hello", "foo", "bar" in bucket 2 of 7 (the table of section 2.5). -/
theorem wit_oneBucket : Inv (t1 []) ∧ (t1 []).tvalid = true ∧ (t1 []).size = 0 ∧
    [hello, foo, bar].length ≤ (t1 []).cfg.maxEntries ∧
    ∀ k ∈ [hello, foo, bar], k.length ≤ (t1 []).cfg.keyMax ∧ bucketOf k (t1 []) = 2 :=
  ⟨inv_of_check (by decide), by decide⟩

/-- DistributionSumsToSize: a live table. -/
theorem wit_distribution : Inv t12 ∧ t12.tvalid = true := ⟨inv_t12, rfl⟩

/-- LiveTableIsNeverRehashed: an add and a remove that succeed, a remove that fails, and a command that leaves the
chains. -/
theorem wit_liveTable : (t8 foo).tvalid = true ∧ chainsWf (t8 foo).chains = true ∧
    (∀ i ∈ [Instr.tblAdd, .tblRemove, .tblContains], i ≠ .tblDiscard) ∧
    value State.err (exec .tblAdd (t8 foo)) = some 0 ∧ value State.err (exec .tblRemove (t8 foo)) = some 0 ∧
    value State.err (exec .tblRemove (t8 bar)) = some 2 ∧ value State.err (exec .tblContains (t8 foo)) = some 0 := by
  decide

/-- ErrorCodesHaveTheirCauses, FailedCommandsChangeNoTable, FailuresRepeat: a command that fails with each code a command
reports. -/
theorem wit_errorCodes : value State.err (exec .tblRemove (t4 foo)) = some 2 ∧
    value State.err (exec (.tblInit .fnv) State.reset) = some 3 ∧
    value State.err (exec .tblSize State.reset) = some 4 ∧ value State.err (exec (.tblInit .mur) (t4 foo)) = some 5 ∧
    value State.err (exec (.keyPush 0) { State.reset with keylen := 64 }) = some 6 ∧
    value State.err (exec .tblAdd { t8 hello with cfg := ⟨64, 7, 3⟩ }) = some 7 ∧
    value State.err (exec .tblDist { t4 [] with arg := 7 }) = some 8 ∧
    value State.err (exec .murBlock (murState 0 0 1 0)) = some 9 ∧
    value State.err (exec (.murByte 0) (murState 0 0 0xFFFFFFFF 0)) = some 10 := by decide

/-- FirstFailingCheckIsReported: both conditions of each clause hold (vectors X1 to X4). -/
theorem wit_firstCheck : (∃ e, decode 0x00000123 = .error e) ∧ ((t1 []).tvalid = true ∧ (t1 []).arg = 0) ∧
    (({ State.reset with cfg := ⟨64, 7, 3⟩, size := 3 } : State).tvalid = false ∧
      ({ State.reset with cfg := ⟨64, 7, 3⟩, size := 3 } : State).size.toNat = 3) ∧
    (currentKey State.reset = some [] ∧ [] ∉ chainOf State.reset.chains (bucketOf [] State.reset)) ∧
    State.reset.buckets.toNat ≤ State.reset.arg.toNat ∧
    ((murState 0 0 0xFFFFFFFD 0).murLen.toNat % 4 ≠ 0 ∧ (murState 0 0 0xFFFFFFFD 0).murLen.toNat > 0xFFFFFFFB) :=
  ⟨⟨_, rfl⟩, by decide⟩

end Sys2Proof.Tests
end

section
/-! PROOFS. The absolute value rule (00_scope.md R11): `abs32` is the library's `BitVec.abs` at 32 bits, and the bit of
weight `2^31` is the sign bit. -/

namespace Sys2Proof.Machine

/-! ### `abs32` as the two's-complement absolute value (R11) -/

theorem getLsbD_31_eq_msb (x : Word) : x.getLsbD 31 = x.msb := (BitVec.msb_eq_getLsbD_last x).symm

/-- `BitVec.zero_sub` for the numeral `0` of the model. -/
theorem zero_sub_eq_neg (x : Word) : 0 - x = -x := BitVec.zero_sub x

theorem abs32_eq_abs (x : Word) : abs32 x = x.abs := by
  rw [abs32, BitVec.abs_eq, getLsbD_31_eq_msb, zero_sub_eq_neg]

theorem abs32_of_msb_false {x : Word} (h : x.msb = false) : abs32 x = x := by
  simp [abs32_eq_abs, BitVec.abs_eq, h]

theorem abs32_of_msb_true {x : Word} (h : x.msb = true) : abs32 x = -x := by
  simp [abs32_eq_abs, BitVec.abs_eq, h]

theorem toNat_abs32 (x : Word) :
    (abs32 x).toNat = if x.getLsbD 31 then (2 ^ 32 - x.toNat) % 2 ^ 32 else x.toNat := by
  rw [getLsbD_31_eq_msb]
  cases h : x.msb with
  | false => simp [abs32_of_msb_false h]
  | true => simp [abs32_of_msb_true h, BitVec.toNat_neg]

/-- The most-negative edge case is the only one: no other result has its sign bit set. -/
theorem getLsbD_31_abs32_iff (x : Word) : (abs32 x).getLsbD 31 = true ↔ x = 0x80000000#32 := by
  have hmin : BitVec.intMin 32 = 0x80000000#32 := by decide
  rw [getLsbD_31_eq_msb, abs32_eq_abs, BitVec.msb_abs, hmin]
  simp

/-- Negation flips the sign bit of every word but the two that are their own negations, `0` and `0x80000000`. -/
theorem abs32_neg (x : Word) : abs32 (-x) = abs32 x := by
  by_cases h0 : x = 0#32
  · simp [h0]
  by_cases hmin : x = BitVec.intMin 32
  · simp [hmin]
  have hflip : (-x).msb = !x.msb := by simp [h0, hmin]
  cases h : x.msb with
  | false => rw [abs32_of_msb_true (by rw [hflip, h]; rfl), BitVec.neg_neg, abs32_of_msb_false h]
  | true => rw [abs32_of_msb_false (by rw [hflip, h]; rfl), abs32_of_msb_true h]

/-- Settles O26: the value, the edge case and the symmetry are the lemmas above; the corner cases are evaluated. -/
theorem absoluteValueRule : Obligations.AbsoluteValueRule := by
  have symmetric (x : Word) : abs32 (0 - x) = abs32 x := by rw [zero_sub_eq_neg, abs32_neg]
  exact ⟨toNat_abs32, getLsbD_31_abs32_iff, by decide, symmetric, by decide⟩

end Sys2Proof.Machine
end

section
/-! PROOFS. The invariant (10_state.md R35, R40 and the ranges of R26 to R37): the reset state meets it, and every step
keeps it. Each clause of `Inv` gets lemmas about the state it speaks of; then one lemma per group of commands. -/

namespace Sys2Proof.Machine

/-! ### The digest (R28) -/

theorem abs32_minneg {x : Word} (h : (abs32 x).getLsbD 31 = true) : abs32 x = 0x80000000#32 := by
  rw [(getLsbD_31_abs32_iff x).1 h]
  decide

theorem hashOf_minneg (sel : Hasher) (k : Key) :
    (hashOf sel k).getLsbD 31 = true → hashOf sel k = 0x80000000#32 := by
  cases sel
  · exact abs32_minneg (x := fnv1aRaw k)
  · exact abs32_minneg (x := murmurRaw k)

/-! ### The pending bytes of the Murmur core (R35) -/

/-- Shifting everything out is having only the bits shifted. -/
theorem lsr32_eq_zero_iff {x : Word} {r : Nat} : lsr32 x r = 0 ↔ x.toNat < 2 ^ r := by
  rw [← BitVec.toNat_inj]
  simp [lsr32, Nat.shiftRight_eq_div_pow, Nat.div_eq_zero_iff]

theorem toNat_leWord_lt (bs : List Byte) : (leWord bs).toNat < 2 ^ (8 * bs.length) := by
  induction bs with
  | nil => simp [leWord]
  | cons b bs ih =>
    have hb := b.isLt
    have hadd : (leWord (b :: bs)).toNat ≤ b.toNat + 2 ^ 8 * (leWord bs).toNat := by
      simp only [leWord, add32, zext32, shl32, BitVec.toNat_add, BitVec.toNat_setWidth, BitVec.toNat_shiftLeft,
        Nat.shiftLeft_eq]
      omega
    rw [List.length_cons, Nat.mul_succ, Nat.add_comm, pow_add]
    omega

/-- The tail of R153 holds only the bytes past the last full block. -/
theorem murTailOf_pending (k : Key) : lsr32 (murTailOf k) (8 * (k.length % 4)) = 0 := by
  have h := toNat_leWord_lt (k.drop (4 * (k.length / 4)))
  rw [List.length_drop, show k.length - 4 * (k.length / 4) = k.length % 4 by omega] at h
  exact lsr32_eq_zero_iff.2 h

/-- One more byte at offset `8 r` of a tail that holds `r` bytes gives a tail that holds `r + 1`. -/
theorem or32_byte_pending {x : Word} {r : Nat} (b : Byte) (h : lsr32 x (8 * r) = 0) :
    lsr32 (or32 x (shl32 (zext32 b) (8 * r))) (8 * (r + 1)) = 0 := by
  rw [lsr32_eq_zero_iff] at h ⊢
  have hb : b.toNat * 2 ^ (8 * r) < 2 ^ (8 * (r + 1)) := by
    rw [Nat.mul_succ, Nat.add_comm, pow_add]
    exact Nat.mul_lt_mul_of_pos_right b.isLt (by positivity)
  have hx : x.toNat < 2 ^ (8 * (r + 1)) := lt_of_lt_of_le h (Nat.pow_le_pow_right (by omega) (by omega))
  rw [or32, BitVec.toNat_or]
  refine Nat.or_lt_two_pow hx (lt_of_le_of_lt ?_ hb)
  simp only [shl32, zext32, BitVec.toNat_shiftLeft, BitVec.toNat_setWidth, Nat.shiftLeft_eq]
  have := b.isLt
  rw [Nat.mod_eq_of_lt (show b.toNat < 2 ^ 32 by omega)]
  exact Nat.mod_le _ _

/-! ### The key buffer (R30) -/

/-- Writing at the first free position lists it after the others. -/
theorem map_fst_write_end {m : List Host.Cell} {a n : Nat} (b : Byte) (h : m.map Prod.fst = List.range' a n) :
    (Memory.write m (a + n) b).map Prod.fst = List.range' a (n + 1) := by
  induction m generalizing a n with
  | nil =>
    obtain rfl : n = 0 := by simpa using h
    rfl
  | cons e rest ih =>
    obtain ⟨p, y⟩ := e
    cases n with
    | zero => simp at h
    | succ n =>
      simp only [List.map_cons, List.range'_succ, List.cons.injEq] at h
      obtain ⟨rfl, hrest⟩ := h
      have hcons : Memory.write ((p, y) :: rest) (p + (n + 1)) b = (p, y) :: Memory.write rest (p + 1 + n) b := by
        rw [Memory.write, cellsPut, if_neg (by omega), if_neg (by omega), Memory.write,
          show p + (n + 1) = p + 1 + n by omega]
      rw [hcons, List.map_cons, ih hrest]
      rfl

theorem map_fst_writeBytes_end {m : List Host.Cell} {a : Nat} (v : Word) (n : Nat)
    (h : m.map Prod.fst = List.range a) : (writeBytes m a v n).map Prod.fst = List.range (a + n) := by
  induction n with
  | zero => exact h
  | succ n ih =>
    rw [List.range_eq_range'] at ih ⊢
    simpa [writeBytes, Nat.add_assoc] using map_fst_write_end (a := 0) (byteOf v n) ih

/-! ### The bucket of a key (R176) -/

theorem bucketOf_lookedUp (k k' : Key) (s : State) : bucketOf k' (lookedUp k s) = bucketOf k' s := by
  simp [bucketOf]

/-! ### What the invariant says at once about sizes -/

theorem Inv.config_bounds {s : State} (h : Inv s) :
    s.cfg.keyMax < 2 ^ 31 ∧ s.cfg.maxBuckets < 2 ^ 31 ∧ s.cfg.maxEntries < 2 ^ 32 := by
  have hc := h.cfg
  simp only [CfgInv, Config.wf, Bool.and_eq_true, decide_eq_true_eq] at hc
  omega

theorem Inv.currentKey_length_le {s : State} {k : Key} (h : Inv s) (hk : currentKey s = some k) :
    k.length ≤ s.cfg.keyMax := by
  rw [currentKey_length hk]
  exact h.key.1

theorem Inv.bucketOf_lt {s : State} (h : Inv s) (hv : s.tvalid = true) (k : Key) :
    bucketOf k s < s.buckets.toNat := by
  rw [bucketOf, umod, BitVec.toNat_umod]
  exact Nat.mod_lt _ (h.live.1 hv).1

/-! ### Updates that keep the invariant -/

theorem Inv.complete {s : State} (h : Inv s) : Inv (complete s) :=
  { h with status := ⟨Nat.zero_le _, fun hne => absurd rfl hne⟩ }

theorem Inv.raise {s : State} (h : Inv s) (c : ErrCode) : Inv (raise c s) :=
  { h with status := ⟨(errCode_range c).2, fun _ => rfl⟩ }

/-- With the sticky flag cleared `ERR` must be cleared too, as `CLR_ERR` does. -/
theorem Inv.complete_clearSticky {s : State} (h : Inv s) : Inv (Machine.complete (clearSticky s)) :=
  { h with status := ⟨Nat.zero_le _, fun hne => absurd rfl hne⟩ }

theorem Inv.setResult {s : State} (h : Inv s) (w : Word) : Inv { s with result := w } := { h with }

theorem Inv.setFnvAcc {s : State} (h : Inv s) (w : Word) : Inv { s with fnvAcc := w } := { h with }

theorem Inv.setDigest {s : State} (h : Inv s) {w : Word} (hw : w.getLsbD 31 = true → w = 0x80000000#32) :
    Inv { s with digest := w } := { h with digest := hw }

theorem Inv.setIdx {s : State} (h : Inv s) (w : Word) : Inv { s with idx := w } := { h with }

theorem Inv.setMur {s : State} (h : Inv s) (acc : Word) {tail len : Word}
    (ht : lsr32 tail (8 * (len.toNat % 4)) = 0) : Inv { s with murH := acc, murTail := tail, murLen := len } :=
  { h with mur := ht }

theorem Inv.setHostSide {s : State} (h : Inv s) (v : Word) (q : List Txn) (r : List Word) :
    Inv { s with arg := v, port := q, returned := r } := { h with }

theorem Inv.clearKey {s : State} (h : Inv s) : Inv { s with keylen := 0, keybuf := Memory.unspecified } :=
  { h with key := ⟨Nat.zero_le _, rfl⟩ }

theorem Inv.push {s : State} (h : Inv s) {n : Nat} (v : Word) (hroom : s.keylen.toNat + n ≤ s.cfg.keyMax) :
    Inv { s with keybuf := writeBytes s.keybuf s.keylen.toNat v n, keylen := s.keylen + BitVec.ofNat 32 n } := by
  obtain ⟨hmax, -, -⟩ := h.config_bounds
  have hlen : (s.keylen + BitVec.ofNat 32 n).toNat = s.keylen.toNat + n := by
    rw [BitVec.toNat_add, BitVec.toNat_ofNat]
    omega
  have hkeys := map_fst_writeBytes_end v n h.key.2
  rw [← hlen] at hkeys hroom
  exact { h with key := ⟨hroom, hkeys⟩ }

theorem Inv.lookedUp {s : State} {k : Key} (h : Inv s) (hk : currentKey s = some k) : Inv (lookedUp k s) := by
  have hlen : (BitVec.ofNat 32 k.length).toNat = k.length := by rw [currentKey_length hk]; simp
  have htail : lsr32 (murTailOf k) (8 * ((BitVec.ofNat 32 k.length).toNat % 4)) = 0 := by
    rw [hlen]
    exact murTailOf_pending k
  unfold Machine.lookedUp
  split
  · exact ((h.setFnvAcc _).setDigest (hashOf_minneg .fnv k)).setIdx _
  · exact ((h.setMur _ htail).setDigest (hashOf_minneg .mur k)).setIdx _

/-- A live table with no entry meets the clauses on the table. -/
theorem Inv.newTable {s : State} (h : Inv s) (sel : Hasher) {n : Word} (hpos : n ≠ 0)
    (hmax : n.toNat ≤ s.cfg.maxBuckets) :
    Inv { s with tvalid := true, hsel := sel, buckets := n, size := 0, chains := [] } := by
  have hn : 1 ≤ n.toNat := Nat.one_le_iff_ne_zero.2 fun h0 => hpos (BitVec.eq_of_toNat_eq h0)
  exact { h with
    live := ⟨fun _ => ⟨hn, hmax⟩, fun hf => Bool.noConfusion hf⟩
    chain := ⟨rfl, by simp⟩
    size := ⟨(entryCount_nil _).symm, Nat.zero_le _⟩
    placed := by simp [PlacedInv] }

theorem Inv.noTable {s : State} (h : Inv s) :
    Inv { s with tvalid := false, hsel := .fnv, buckets := 0, size := 0, chains := [] } :=
  { h with
    live := ⟨fun hf => Bool.noConfusion hf, fun _ => ⟨rfl, rfl, rfl, rfl⟩⟩
    chain := ⟨rfl, by simp⟩
    size := ⟨rfl, Nat.zero_le _⟩
    placed := by simp [PlacedInv] }

/-- Replacing one chain of a live table keeps the invariant when its keys belong there and SIZE counts the change. -/
theorem Inv.setChain {s : State} (h : Inv s) (hv : s.tvalid = true) {i : Nat} (hi : i < s.buckets.toNat)
    {ks : List Key} {n : Word}
    (hks : ∀ k ∈ ks, k.length ≤ s.cfg.keyMax ∧ (hashOf s.hsel k).toNat % s.buckets.toNat = i)
    (hsize : n.toNat + (chainOf s.chains i).length = s.size.toNat + ks.length) (hmax : n.toNat ≤ s.cfg.maxEntries) :
    Inv { s with chains := setChain s.chains i ks, size := n } := by
  obtain ⟨hwf, hbuckets⟩ := h.chain
  have hcount := entryCount_setChain ks hwf hi
  have hentries := h.size.1
  refine { h with live := ⟨h.live.1, ?_⟩, chain := ⟨chainsWf_setChain i ks hwf, ?_⟩, size := ⟨?_, hmax⟩, placed := ?_ }
  · intro hf
    exact absurd (hv.symm.trans hf) (by decide)
  · intro e he
    obtain rfl | he := mem_setChain he
    · exact hi
    · exact hbuckets e he
  · show n.toNat = entryCount (Machine.setChain s.chains i ks) s.buckets.toNat
    omega
  · intro e he
    obtain rfl | he := mem_setChain he
    · exact hks
    · exact h.placed e he

/-- The keys of a chain belong there. -/
theorem Inv.placed_chainOf {s : State} (h : Inv s) {i : Nat} {k : Key} (hk : k ∈ chainOf s.chains i) :
    k.length ≤ s.cfg.keyMax ∧ (hashOf s.hsel k).toNat % s.buckets.toNat = i := by
  obtain ⟨ks, hmem, hks⟩ := mem_chainOf hk
  exact h.placed _ hmem k hks

theorem Inv.appendKey {s : State} {k : Key} (h : Inv s) (hv : s.tvalid = true)
    (hroom : s.size.toNat ≠ s.cfg.maxEntries) (hk : currentKey s = some k) :
    Inv { s with chains := Machine.setChain s.chains (bucketOf k s) (chainOf s.chains (bucketOf k s) ++ [k])
                 size := s.size + 1 } := by
  obtain ⟨-, -, hmax⟩ := h.config_bounds
  have hle := h.size.2
  have hsize : (s.size + 1).toNat = s.size.toNat + 1 := by
    rw [BitVec.toNat_add]
    exact Nat.mod_eq_of_lt (show s.size.toNat + 1 < 2 ^ 32 by omega)
  refine h.setChain hv (h.bucketOf_lt hv k) ?_ ?_ ?_
  · intro k' hk'
    rcases List.mem_append.1 hk' with hk' | hk'
    · exact h.placed_chainOf hk'
    · obtain rfl := List.mem_singleton.1 hk'
      exact ⟨h.currentKey_length_le hk, (BitVec.toNat_umod ..).symm⟩
  · rw [hsize, List.length_append, List.length_singleton]
    omega
  · omega

theorem Inv.removeKey {s : State} {k : Key} {j : Nat} (h : Inv s) (hv : s.tvalid = true)
    (hj : findKey k (chainOf s.chains (bucketOf k s)) = some j) :
    Inv { s with chains := Machine.setChain s.chains (bucketOf k s) ((chainOf s.chains (bucketOf k s)).eraseIdx j)
                 size := s.size - 1 } := by
  have hlt := findKey_lt hj
  have hi := h.bucketOf_lt hv k
  have hlen := length_le_entryCount s.chains hi
  obtain ⟨hentries, hmax⟩ := h.size
  have hsize : (s.size - 1).toNat = s.size.toNat - 1 :=
    BitVec.toNat_sub_of_le (BitVec.le_def.2 (show 1 ≤ s.size.toNat by omega))
  refine h.setChain hv hi ?_ ?_ ?_
  · exact fun k' hk' => h.placed_chainOf (List.mem_of_mem_eraseIdx hk')
  · rw [hsize, List.length_eraseIdx_of_lt hlt]
    omega
  · omega

/-! ### Commands -/

theorem murByte_keeps_inv {s t : State} {b : Byte} (hs : Inv s) (h : execMurByte b s = .next t) : Inv t := by
  have hlen (hne : s.murLen ≠ 0xFFFFFFFF#32) : (s.murLen + 1).toNat = s.murLen.toNat + 1 := by
    have hlt : s.murLen.toNat ≠ 2 ^ 32 - 1 := fun he => hne (BitVec.eq_of_toNat_eq he)
    have := s.murLen.isLt
    rw [BitVec.toNat_add]
    exact Nat.mod_eq_of_lt (show s.murLen.toNat + 1 < 2 ^ 32 by omega)
  obtain ⟨-, rfl⟩ | ⟨-, -, rfl⟩ | ⟨hne, hpart, rfl⟩ := execMurByte_next h
  · exact hs.raise _
  · have hzero (r : Nat) : lsr32 0 r = 0 := by simp [lsr32]
    exact (hs.setMur _ (hzero _)).complete
  · have htail : lsr32 (murTailWith s b) (8 * ((s.murLen + 1).toNat % 4)) = 0 := by
      rw [hlen hne, show (s.murLen.toNat + 1) % 4 = s.murLen.toNat % 4 + 1 by omega]
      exact or32_byte_pending b hs.mur
    exact (hs.setMur _ htail).complete

theorem murBlock_keeps_inv {s t : State} (hs : Inv s) (h : execMurBlock s = .next t) : Inv t := by
  obtain ⟨-, rfl⟩ | ⟨-, -, rfl⟩ | ⟨hedge, hle, rfl⟩ := execMurBlock_next h
  · exact hs.raise _
  · exact hs.raise _
  · have hlen : (s.murLen + 4).toNat % 4 = s.murLen.toNat % 4 := by
      rw [BitVec.toNat_add]
      exact (Nat.mod_mod_of_dvd _ (by decide)).trans (Nat.add_mod_right ..)
    have htail : lsr32 s.murTail (8 * ((s.murLen + 4).toNat % 4)) = 0 := by
      rw [hlen]
      exact hs.mur
    exact (hs.setMur _ htail).complete

theorem tblAdd_keeps_inv {s t : State} (hs : Inv s) (h : execTblAdd s = .next t) : Inv t := by
  obtain ⟨-, rfl⟩ | ⟨-, -, rfl⟩ | ⟨hv, hroom, k, hk, rfl⟩ := execTblAdd_next h
  · exact hs.raise _
  · exact hs.raise _
  · have hkey : currentKey (lookedUp k s) = some k := by simpa [currentKey] using hk
    have hadd := (hs.lookedUp hk).appendKey (by simpa using hv) (by simpa using hroom) hkey
    simp only [lookedUp_chains, lookedUp_size, bucketOf_lookedUp] at hadd
    exact hadd.complete

theorem tblRemove_keeps_inv {s t : State} (hs : Inv s) (h : execTblRemove s = .next t) : Inv t := by
  obtain ⟨-, rfl⟩ | ⟨hv, k, hk, ⟨-, rfl⟩ | ⟨j, hj, rfl⟩⟩ := execTblRemove_next h
  · exact hs.raise _
  · exact ((hs.lookedUp hk).setResult _).raise _
  · have hrem := (hs.lookedUp hk).removeKey (by simpa using hv) (by simpa [bucketOf_lookedUp] using hj)
    simp only [lookedUp_chains, lookedUp_size, bucketOf_lookedUp] at hrem
    exact (hrem.setResult 1).complete

/-- Every command keeps the invariant, whether it completes or fails. -/
theorem exec_keeps_inv {i : Instr} {s t : State} (hs : Inv s) (h : exec i s = .next t) : Inv t := by
  cases i with
  | nop => cases h; exact hs.complete
  | clrErr => cases h; exact hs.complete_clearSticky
  | keyClr => cases h; exact hs.clearKey.complete
  | keyPush b =>
    obtain ⟨-, rfl⟩ | ⟨hroom, rfl⟩ := execKeyPush_next h
    · exact hs.raise _
    · exact (hs.push (n := 1) _ hroom).complete
  | keyPushw =>
    obtain ⟨-, rfl⟩ | ⟨hroom, rfl⟩ := execKeyPushw_next h
    · exact hs.raise _
    · exact (hs.push (n := 4) _ hroom).complete
  | fnvInit => cases h; exact (hs.setFnvAcc _).complete
  | fnvByte b => cases h; exact (hs.setFnvAcc _).complete
  | fnvFinal => cases h; exact (hs.setDigest abs32_minneg).complete
  | fnvKey =>
    obtain ⟨k, -, rfl⟩ := execFnvKey_next h
    exact ((hs.setFnvAcc _).setDigest (hashOf_minneg .fnv k)).complete
  | murInit => cases h; exact (hs.setMur _ (by decide)).complete
  | murByte b => exact murByte_keeps_inv hs h
  | murBlock => exact murBlock_keeps_inv hs h
  | murFinal => cases h; exact (hs.setDigest abs32_minneg).complete
  | murKey =>
    obtain ⟨k, hk, rfl⟩ := execMurKey_next h
    have htail : lsr32 (murTailOf k) (8 * (s.keylen.toNat % 4)) = 0 :=
      currentKey_length hk ▸ murTailOf_pending k
    exact ((hs.setMur _ htail).setDigest (hashOf_minneg .mur k)).complete
  | tblInit sel =>
    obtain ⟨-, rfl⟩ | ⟨-, -, rfl⟩ | ⟨-, hpos, hmax, rfl⟩ := execTblInit_next h
    · exact hs.raise _
    · exact hs.raise _
    · exact (hs.newTable sel hpos hmax).complete
  | tblDiscard =>
    obtain ⟨-, rfl⟩ | ⟨-, rfl⟩ := execTblDiscard_next h
    · exact hs.raise _
    · exact hs.noTable.complete
  | tblAdd => exact tblAdd_keeps_inv hs h
  | tblContains =>
    obtain ⟨-, rfl⟩ | ⟨-, k, hk, rfl⟩ := execTblContains_next h
    · exact hs.raise _
    · exact (hs.lookedUp hk).complete.setResult _
  | tblRemove => exact tblRemove_keeps_inv hs h
  | tblDist =>
    obtain ⟨-, rfl⟩ | ⟨-, -, rfl⟩ | ⟨-, -, rfl⟩ := execTblDist_next h
    · exact hs.raise _
    · exact hs.raise _
    · exact hs.complete.setResult _
  | tblColl =>
    obtain ⟨-, rfl⟩ | ⟨-, rfl⟩ := execTblColl_next h
    · exact hs.raise _
    · exact hs.complete.setResult _
  | tblSize =>
    obtain ⟨-, rfl⟩ | ⟨-, rfl⟩ := execTblSize_next h
    · exact hs.raise _
    · exact hs.complete.setResult _

/-! ### Reset, transactions, the step -/

theorem inv_resetWith {cfg : Config} (h : cfg.wf = true) : Inv (State.resetWith cfg) where
  cfg := h
  status := by simp [StatusInv, State.resetWith]
  digest := by simp [DigestInv, State.resetWith]
  key := by simp [KeyInv, State.resetWith]
  mur := by simp [MurInv, State.resetWith, lsr32]
  live := by simp [LiveInv, State.resetWith]
  chain := by simp [ChainInv, State.resetWith, chainsWf, cellsRising]
  size := by simp [SizeInv, State.resetWith, entryCount]
  placed := by simp [PlacedInv, State.resetWith]

/-- Settles O14: the reference configuration is one of those of R6. -/
theorem resetMeetsTheInvariant : Obligations.ResetMeetsTheInvariant :=
  ⟨inv_resetWith (by decide), fun _ => inv_resetWith⟩

theorem perform_keeps_inv {x : Txn} {s t : State} (hs : Inv s) (h : perform x s = .next t) : Inv t := by
  obtain ⟨w, -, h⟩ | ⟨v, -, rfl⟩ | ⟨off, v, -, -, -, rfl⟩ | ⟨off, -, rfl⟩ | ⟨-, rfl⟩ := perform_next h
  · obtain ⟨i, -, h⟩ | ⟨e, -, rfl⟩ := execute_next h
    · exact exec_keeps_inv hs h
    · exact hs.raise _
  · exact hs.setHostSide _ _ _
  · exact hs
  · exact hs.setHostSide _ _ _
  · exact (inv_resetWith hs.cfg).setHostSide _ _ _

/-- Settles O15: the step takes the next transaction off the queue, which no clause speaks of, and performs it. -/
theorem everyStepKeepsTheInvariant : Obligations.EveryStepKeepsTheInvariant := by
  intro s t hs h
  unfold step nextTxn at h
  split at h
  · cases h
    exact hs
  · exact perform_keeps_inv (hs.setHostSide _ _ _) h

end Sys2Proof.Machine
end

section
/-! PROOFS. What no command reads: the flags (10_state.md R27), the bytes of KEYBUF at or past KEYLEN (R30), and the
host's queue (log 1). Two states that differ only there are put through a command side by side, once for every command;
the three statements are read off from the one lemma `exec_matches`. -/

namespace Sys2Proof.Machine

/-! ### Two answers side by side -/

/-- Two answers match: both are next states that `R` relates, or both stop for the same reason. -/
inductive Matches (R : State → State → Prop) : Result → Result → Prop
  | next {t t' : State} (h : R t t') : Matches R (.next t) (.next t')
  | fault (f : Fault) : Matches R (.fault f) (.fault f)
  | refused (r : Refusal) : Matches R (.refused r) (.refused r)

theorem Matches.exists_next {R : State → State → Prop} {r r' : Result} {t : State} (h : Matches R r r')
    (hr : r = .next t) : ∃ t', r' = .next t' ∧ R t t' := by
  cases h with
  | next h =>
    cases hr
    exact ⟨_, rfl, h⟩
  | fault f | refused g => cases hr

theorem Matches.eq_fault {R : State → State → Prop} {r r' : Result} {f : Fault} (h : Matches R r r')
    (hr : r = .fault f) : r' = .fault f := by
  cases h with
  | fault g => exact hr
  | next h | refused g => cases hr

theorem Matches.eq_refused {R : State → State → Prop} {r r' : Result} {g : Refusal} (h : Matches R r r')
    (hr : r = .refused g) : r' = .refused g := by
  cases h with
  | refused g => exact hr
  | next h | fault f => cases hr

theorem Matches.mono {R R' : State → State → Prop} {r r' : Result} (h : Matches R r r')
    (hR : ∀ t t', r = .next t → R t t' → R' t t') : Matches R' r r' := by
  cases h with
  | next h => exact .next (hR _ _ rfl h)
  | fault f => exact .fault f
  | refused r => exact .refused r

theorem Matches.ite {R : State → State → Prop} {c : Prop} [Decidable c] {x x' y y' : Result}
    (hx : Matches R x x') (hy : Matches R y y') : Matches R (if c then x else y) (if c then x' else y') := by
  split
  · exact hx
  · exact hy

/-! ### States that differ where no command looks -/

/-- The buffer `m'` has the first `n` bytes of `m`; with `whole`, it is `m`. -/
def SameBytes (whole : Prop) (n : Nat) (m m' : List Host.Cell) : Prop :=
  (∀ p, p < n → Memory.read m' p = Memory.read m p) ∧ (whole → m' = m)

theorem SameBytes.writeBytes {whole : Prop} {a : Nat} {m m' : List Host.Cell} (h : SameBytes whole a m m') (v : Word)
    {n c : Nat} (hc : c ≤ a + n) : SameBytes whole c (writeBytes m a v n) (writeBytes m' a v n) := by
  obtain ⟨hread, hwhole⟩ := h
  refine ⟨fun p hp => ?_, fun hw => by rw [hwhole hw]⟩
  by_cases hpa : p < a
  · rw [read_writeBytes_out _ _ _ (.inl hpa), read_writeBytes_out _ _ _ (.inl hpa), hread p hpa]
  · obtain ⟨j, rfl⟩ := Nat.exists_eq_add_of_le (Nat.le_of_not_lt hpa)
    rw [read_writeBytes_in _ _ _ (by omega), read_writeBytes_in _ _ _ (by omega)]

theorem SameBytes.refl (n : Nat) (m : List Host.Cell) : SameBytes True n m m := ⟨fun _ _ => rfl, fun _ => rfl⟩

/-- The state with other flags, another buffer and another queue. -/
def veiled (e : BitVec 4) (b : Bool) (m : List Host.Cell) (q : List Txn) (s : State) : State :=
  { s with err := e, errs := b, keybuf := m, port := q }

theorem veiled_eq_withFlags {e : BitVec 4} {b : Bool} {q : List Txn} {s : State} (hq : s.port = q) :
    veiled e b s.keybuf q s = withFlags e b s := by
  subst hq
  rfl

theorem veiled_eq_setKeybuf {m : List Host.Cell} {q : List Txn} {s : State} (hq : s.port = q) :
    veiled s.err s.errs m q s = { s with keybuf := m } := by
  subst hq
  rfl

/-- How the answer from the veiled state differs: the veil stays, but `ERR` is the same and `ERRS` is set on failure. -/
def StillVeiled (whole : Prop) (b : Bool) (q : List Txn) (t t' : State) : Prop :=
  ∃ m', t' = veiled t.err (if t.err ≠ 0 then true else b) m' q t ∧ SameBytes whole t.keylen.toNat t.keybuf m'

section
variable {whole : Prop} {e : BitVec 4} {b : Bool} {m : List Host.Cell} {q : List Txn} {s : State}

theorem matches_finish (u : State) (h : SameBytes whole u.keylen.toNat u.keybuf m) :
    Matches (StillVeiled whole b q) (finish u) (finish (veiled e b m q u)) :=
  .next ⟨m, rfl, h⟩

theorem matches_fail (c : ErrCode) (u : State) (h : SameBytes whole u.keylen.toNat u.keybuf m) :
    Matches (StillVeiled whole b q) (fail c u) (fail c (veiled e b m q u)) := by
  have hsticky : (if errCode c ≠ 0 then true else b) = true := if_pos (by cases c <;> decide)
  refine .next ⟨m, ?_, h⟩
  rw [raise_err, hsticky]
  rfl

/-! ### Reading and writing the key (R61, R30) -/

theorem currentKey_veiled (h : SameBytes whole s.keylen.toNat s.keybuf m) :
    currentKey (veiled e b m q s) = currentKey s :=
  memBytes_congr fun p _ hp => h.1 p (by rwa [Nat.zero_add] at hp)

theorem pushBytes_of_no_room {n : Nat} (v : Word) (h : ¬ s.keylen.toNat + n ≤ s.cfg.keyMax) :
    pushBytes n v s = .fault .keyWrite := by
  simp only [pushBytes, memWrite, if_neg h]

theorem matches_pushBytes (n : Nat) (v : Word) (h : SameBytes whole s.keylen.toNat s.keybuf m) :
    Matches (StillVeiled whole b q) (pushBytes n v s) (pushBytes n v (veiled e b m q s)) := by
  by_cases hroom : s.keylen.toNat + n ≤ s.cfg.keyMax
  · have hlen : (s.keylen + BitVec.ofNat 32 n).toNat ≤ s.keylen.toNat + n := by
      rw [BitVec.toNat_add, BitVec.toNat_ofNat]
      omega
    rw [pushBytes_of_room v hroom, pushBytes_of_room (s := veiled e b m q s) v hroom]
    exact .next ⟨_, rfl, h.writeBytes v hlen⟩
  · rw [pushBytes_of_no_room v hroom, pushBytes_of_no_room (s := veiled e b m q s) v hroom]
    exact .fault _

/-! ### Hashing the key (R125, R152, R171) -/

theorem fnvKeyWrites_veiled (h : SameBytes whole s.keylen.toNat s.keybuf m) :
    fnvKeyWrites (veiled e b m q s) = (fnvKeyWrites s).map (veiled e b m q) := by
  have hkey := currentKey_veiled (e := e) (b := b) (q := q) h
  cases hk : currentKey s with
  | none => rw [fnvKeyWrites_eq_none hk, fnvKeyWrites_eq_none (hkey.trans hk)]; rfl
  | some k => rw [fnvKeyWrites_of_currentKey hk, fnvKeyWrites_of_currentKey (hkey.trans hk)]; rfl

theorem murKeyWrites_eq_none (h : currentKey s = none) : murKeyWrites s = none := by
  refine Option.eq_none_iff_forall_ne_some.2 fun t ht => ?_
  obtain ⟨k, hk, -⟩ := murKeyWrites_eq_some ht
  rw [h] at hk
  cases hk

theorem murKeyWrites_veiled (h : SameBytes whole s.keylen.toNat s.keybuf m) :
    murKeyWrites (veiled e b m q s) = (murKeyWrites s).map (veiled e b m q) := by
  have hkey := currentKey_veiled (e := e) (b := b) (q := q) h
  cases hk : currentKey s with
  | none => rw [murKeyWrites_eq_none hk, murKeyWrites_eq_none (hkey.trans hk)]; rfl
  | some k => rw [murKeyWrites_of_currentKey hk, murKeyWrites_of_currentKey (hkey.trans hk)]; rfl

theorem matches_execFnvKey (h : SameBytes whole s.keylen.toNat s.keybuf m) :
    Matches (StillVeiled whole b q) (execFnvKey s) (execFnvKey (veiled e b m q s)) := by
  rw [execFnvKey, execFnvKey, fnvKeyWrites_veiled h]
  cases hw : fnvKeyWrites s with
  | none => exact .fault _
  | some t =>
    obtain ⟨k, -, rfl⟩ := fnvKeyWrites_eq_some hw
    exact matches_finish _ h

theorem matches_execMurKey (h : SameBytes whole s.keylen.toNat s.keybuf m) :
    Matches (StillVeiled whole b q) (execMurKey s) (execMurKey (veiled e b m q s)) := by
  rw [execMurKey, execMurKey, murKeyWrites_veiled h]
  cases hw : murKeyWrites s with
  | none => exact .fault _
  | some t =>
    obtain ⟨k, -, rfl⟩ := murKeyWrites_eq_some hw
    exact matches_finish _ h

theorem lookedUp_veiled (k : Key) : lookedUp k (veiled e b m q s) = veiled e b m q (lookedUp k s) := by
  cases hs : s.hsel <;> simp [lookedUp, veiled, hs]

theorem withHashedKey_of_none (h : currentKey s = none) (f : State → Key → Result) :
    withHashedKey s f = .fault .keyRead := by
  rw [withHashedKey, h]
  cases tableHash s <;> rfl

/-! ### Commands of the table -/

theorem matches_withTable {r r' : Result} (h : SameBytes whole s.keylen.toNat s.keybuf m)
    (hr : Matches (StillVeiled whole b q) r r') :
    Matches (StillVeiled whole b q) (withTable s r) (withTable (veiled e b m q s) r') :=
  .ite hr (matches_fail .enotbl s h)

/-- A command on the hashed key matches when its body does on every state that has the same key. -/
theorem matches_withHashedKey {f : State → Key → Result} (h : SameBytes whole s.keylen.toNat s.keybuf m)
    (hf : ∀ (u : State) (k : Key), SameBytes whole u.keylen.toNat u.keybuf m →
      Matches (StillVeiled whole b q) (f u k) (f (veiled e b m q u) k)) :
    Matches (StillVeiled whole b q) (withHashedKey s f) (withHashedKey (veiled e b m q s) f) := by
  have hkey := currentKey_veiled (e := e) (b := b) (q := q) h
  cases hk : currentKey s with
  | none =>
    rw [withHashedKey_of_none hk, withHashedKey_of_none (hkey.trans hk)]
    exact .fault _
  | some k =>
    rw [withHashedKey_of_currentKey hk, withHashedKey_of_currentKey (hkey.trans hk), lookedUp_veiled]
    exact hf _ k (by simpa using h)

theorem matches_execTblAdd (h : SameBytes whole s.keylen.toNat s.keybuf m) :
    Matches (StillVeiled whole b q) (execTblAdd s) (execTblAdd (veiled e b m q s)) :=
  matches_withTable h <| .ite (matches_fail .efull s h) <|
    matches_withHashedKey h fun _ _ hu => matches_finish _ hu

theorem idxChain_veiled (u : State) : idxChain (veiled e b m q u) = idxChain u := rfl

theorem matches_execTblContains (h : SameBytes whole s.keylen.toNat s.keybuf m) :
    Matches (StillVeiled whole b q) (execTblContains s) (execTblContains (veiled e b m q s)) := by
  refine matches_withTable h (matches_withHashedKey h fun u k hu => ?_)
  rw [idxChain_veiled]
  cases findKey k (idxChain u) with
  | none => exact matches_finish _ hu
  | some j => exact matches_finish _ hu

theorem matches_execTblRemove (h : SameBytes whole s.keylen.toNat s.keybuf m) :
    Matches (StillVeiled whole b q) (execTblRemove s) (execTblRemove (veiled e b m q s)) := by
  refine matches_withTable h (matches_withHashedKey h fun u k hu => ?_)
  rw [idxChain_veiled]
  cases findKey k (idxChain u) with
  | none => exact matches_fail .enotfound _ hu
  | some j => exact matches_finish _ hu

/-! ### Every command -/

/-- Every command but `CLR_ERR`, which writes the sticky flag itself, answers a veiled state as it answers the state. -/
theorem exec_matches_of_ne {i : Instr} (hi : i ≠ .clrErr) (h : SameBytes whole s.keylen.toNat s.keybuf m) :
    Matches (StillVeiled whole b q) (exec i s) (exec i (veiled e b m q s)) := by
  cases i with
  | nop => exact matches_finish s h
  | clrErr => exact absurd rfl hi
  | keyClr => exact .next ⟨_, rfl, fun _ _ => rfl, fun _ => rfl⟩
  | keyPush imm8 => exact .ite (matches_fail _ s h) (matches_pushBytes 1 _ h)
  | keyPushw => exact .ite (matches_fail _ s h) (matches_pushBytes 4 _ h)
  | fnvInit => exact matches_finish { s with fnvAcc := fnvBasis } h
  | fnvByte imm8 => exact matches_finish { s with fnvAcc := fnvMix s.fnvAcc (immOperand imm8) } h
  | fnvFinal => exact matches_finish { s with digest := abs32 s.fnvAcc } h
  | fnvKey => exact matches_execFnvKey h
  | murInit => exact matches_finish { s with murH := murSeed, murTail := 0, murLen := 0 } h
  | murByte imm8 => exact .ite (matches_fail _ s h) (.ite (matches_finish _ h) (matches_finish _ h))
  | murBlock => exact .ite (matches_fail _ s h) (.ite (matches_fail _ s h) (matches_finish _ h))
  | murFinal => exact matches_finish { s with digest := abs32 (murRawOf s.murH s.murTail s.murLen) } h
  | murKey => exact matches_execMurKey h
  | tblInit sel => exact .ite (matches_fail _ s h) (.ite (matches_fail _ s h) (matches_finish _ h))
  | tblDiscard => exact matches_withTable h (matches_finish _ h)
  | tblAdd => exact matches_execTblAdd h
  | tblContains => exact matches_execTblContains h
  | tblRemove => exact matches_execTblRemove h
  | tblDist => exact matches_withTable h (.ite (matches_fail _ s h) (matches_finish _ h))
  | tblColl => exact matches_withTable h (matches_finish _ h)
  | tblSize => exact matches_withTable h (matches_finish _ h)

/-- Every command answers a veiled state as it answers the state (R27, R30). -/
theorem exec_matches (i : Instr) (h : SameBytes whole s.keylen.toNat s.keybuf m) :
    Matches (StillVeiled whole (if i = .clrErr then false else b) q) (exec i s) (exec i (veiled e b m q s)) := by
  by_cases hi : i = .clrErr
  · subst hi
    exact matches_finish (clearSticky s) h
  · rw [if_neg hi]
    exact exec_matches_of_ne hi h

end

/-- What a command does to `ERRS` (R100, R102, R212) and to the queue: the command run beside itself. -/
theorem exec_next_errs_port {i : Instr} {s t : State} (h : exec i s = .next t) :
    t.errs = (if t.err ≠ 0 then true else if i = .clrErr then false else s.errs) ∧ t.port = s.port := by
  have hm := exec_matches (e := s.err) (b := s.errs) (q := s.port) i (.refl s.keylen.toNat s.keybuf)
  obtain ⟨t', ht, m', rfl, -⟩ := hm.exists_next h
  have heq : t = veiled t.err _ m' s.port t := Host.Outcome.next.inj (h.symm.trans ht)
  exact ⟨(congrArg State.errs heq :), (congrArg State.port heq :)⟩

/-- Settles O19: the veil over the two flags alone. -/
theorem noCommandReadsTheFlags : Obligations.NoCommandReadsTheFlags := by
  intro i s t e b h
  have hm := exec_matches (e := e) (b := b) (q := s.port) i (.refl s.keylen.toNat s.keybuf)
  obtain ⟨t', ht, m', rfl, -, hbuf⟩ := hm.exists_next h
  rw [hbuf trivial, veiled_eq_withFlags (exec_next_errs_port h).2] at ht
  exact ht

/-- Settles O25: the veil over the bytes past the key alone. -/
theorem bytesPastKeylenAreUnobservable : Obligations.BytesPastKeylenAreUnobservable := by
  intro i s t m hbytes h
  have hm := exec_matches (whole := False) (e := s.err) (b := s.errs) (q := s.port) i ⟨hbytes, False.elim⟩
  obtain ⟨t', ht, m', rfl, hsame, -⟩ := hm.exists_next h
  obtain ⟨herrs, hport⟩ := exec_next_errs_port h
  rw [← herrs, veiled_eq_setKeybuf hport] at ht
  exact ⟨m', ht, hsame⟩

/-! ### The queue (R21, R22, R70) -/

/-- Settles O10. -/
theorem idleBlockDoesNothing : Obligations.IdleBlockDoesNothing := by
  intro s h
  rw [step, nextTxn, h]

theorem execute_matches_of_port (w : Word) (s : State) (q : List Txn) :
    Matches (fun t t' => t' = { t with port := q }) (execute w s) (execute w { s with port := q }) := by
  unfold execute
  split
  · rename_i i _
    refine (exec_matches (e := s.err) (b := s.errs) (q := q) i (.refl s.keylen.toNat s.keybuf)).mono ?_
    rintro t t' ht ⟨m', rfl, -, hbuf⟩
    rw [← (exec_next_errs_port ht).1, hbuf trivial]
    rfl
  · exact .next rfl

/-- A transaction neither reads nor writes the queue. -/
theorem perform_matches_of_port (x : Txn) (s : State) (q : List Txn) :
    Matches (fun t t' => t' = { t with port := q }) (perform x s) (perform x { s with port := q }) := by
  cases x with
  | write off v =>
    refine .ite ?_ (.refused _)
    unfold hostWrite
    split
    · exact execute_matches_of_port v s q
    · exact .next rfl
    · exact .next rfl
  | read off =>
    have hread : hostRead off { s with port := q } = hostRead off s := by
      unfold hostRead
      cases regAt off with
      | none => rfl
      | some r => cases r <;> rfl
    refine .ite (.next ?_) (.refused _)
    rw [hread]
  | reset => exact .next rfl

theorem perform_next_port {x : Txn} {s t : State} (h : perform x s = .next t) : t.port = s.port := by
  have hm := perform_matches_of_port x s s.port
  obtain ⟨t', ht, rfl⟩ := hm.exists_next h
  exact (congrArg State.port (Host.Outcome.next.inj (h.symm.trans ht)) :)

section
variable {M : Host.Core} {s : M.State} (n : Nat)

theorem run_succ_of_next {t : M.State} (h : M.step s = .next t) : M.run (n + 1) s = M.run n t := by
  rw [Host.Core.run, h]

theorem run_succ_of_fault {f : M.Fault} (h : M.step s = .fault f) : M.run (n + 1) s = .fault f := by
  rw [Host.Core.run, h]

theorem run_succ_of_refused {r : M.Refusal} (h : M.step s = .refused r) : M.run (n + 1) s = .refused r := by
  rw [Host.Core.run, h]

end

/-- The run from a queue, against its transactions performed on the state without one. -/
theorem run_eq_performAll (ts : List Txn) {s : State} (hq : s.port = []) :
    Host.Core.run core ts.length { s with port := ts } = performAll ts s := by
  induction ts generalizing s with
  | nil => exact congrArg Host.Outcome.next (hq ▸ rfl)
  | cons x xs ih =>
    have hm := perform_matches_of_port x s xs
    have hstep : core.step { s with port := x :: xs } = perform x { s with port := xs } := rfl
    rw [performAll]
    cases hx : perform x s with
    | next t =>
      obtain ⟨t', ht, rfl⟩ := hm.exists_next hx
      exact (run_succ_of_next (M := core) _ (hstep.trans ht)).trans (ih ((perform_next_port hx).trans hq))
    | fault f => exact run_succ_of_fault (M := core) _ (hstep.trans (hm.eq_fault hx))
    | refused r => exact run_succ_of_refused (M := core) _ (hstep.trans (hm.eq_refused hx))

/-- Settles O9. -/
theorem runPerformsTransactionsInOrder : Obligations.RunPerformsTransactionsInOrder :=
  fun ts s => run_eq_performAll ts (s := { s with port := [] }) rfl

end Sys2Proof.Machine
end

section
/-! PROOFS. What each command leaves unchanged: the write matrix of 10_state.md R46, a row per command. -/

namespace Sys2Proof.Machine

/-! ### The lookup writes one core, the one HSEL selects (R171) -/

theorem lookedUp_keeps_other_core (k : Key) (s : State) :
    (s.hsel = .mur → (lookedUp k s).fnvAcc = s.fnvAcc) ∧
    (s.hsel = .fnv →
      (lookedUp k s).murH = s.murH ∧ (lookedUp k s).murTail = s.murTail ∧ (lookedUp k s).murLen = s.murLen) := by
  unfold lookedUp
  cases s.hsel with
  | fnv => exact ⟨Hasher.noConfusion, fun _ => ⟨rfl, rfl, rfl⟩⟩
  | mur => exact ⟨fun _ => rfl, Hasher.noConfusion⟩

/-- Settles O60, row by row: what a command that answers did is its `_next` lemma, and each column of the matrix that
does not list the command reads the field back. -/
theorem commandsWriteOnlyTheirState : Obligations.CommandsWriteOnlyTheirState := by
  intro i s t h
  cases i with
  | nop | clrErr | keyClr | fnvInit | fnvByte | fnvFinal | murInit | murFinal =>
    cases h
    simp [SameKey, hashesTheKey]
  | keyPush b =>
    obtain ⟨-, rfl⟩ | ⟨-, rfl⟩ := execKeyPush_next h <;> simp [hashesTheKey]
  | keyPushw =>
    obtain ⟨-, rfl⟩ | ⟨-, rfl⟩ := execKeyPushw_next h <;> simp [hashesTheKey]
  | fnvKey =>
    obtain ⟨k, -, rfl⟩ := execFnvKey_next h
    simp [SameKey, hashesTheKey]
  | murByte b =>
    obtain ⟨-, rfl⟩ | ⟨-, -, rfl⟩ | ⟨-, -, rfl⟩ := execMurByte_next h <;> simp [SameKey, hashesTheKey]
  | murBlock =>
    obtain ⟨-, rfl⟩ | ⟨-, -, rfl⟩ | ⟨-, -, rfl⟩ := execMurBlock_next h <;> simp [SameKey, hashesTheKey]
  | murKey =>
    obtain ⟨k, -, rfl⟩ := execMurKey_next h
    simp [SameKey, hashesTheKey]
  | tblInit sel =>
    obtain ⟨-, rfl⟩ | ⟨-, -, rfl⟩ | ⟨-, -, -, rfl⟩ := execTblInit_next h <;> simp [SameKey, hashesTheKey]
  | tblDiscard =>
    obtain ⟨-, rfl⟩ | ⟨-, rfl⟩ := execTblDiscard_next h <;> simp [SameKey, hashesTheKey]
  | tblAdd =>
    obtain ⟨-, rfl⟩ | ⟨-, -, rfl⟩ | ⟨-, -, k, -, rfl⟩ := execTblAdd_next h
    · simp [SameKey]
    · simp [SameKey]
    · simpa [SameKey, hashesTheKey] using lookedUp_keeps_other_core k s
  | tblContains =>
    obtain ⟨-, rfl⟩ | ⟨-, k, -, rfl⟩ := execTblContains_next h
    · simp [SameKey]
    · simpa [SameKey, hashesTheKey] using lookedUp_keeps_other_core k s
  | tblRemove =>
    obtain ⟨-, rfl⟩ | ⟨-, k, -, ⟨-, rfl⟩ | ⟨j, -, rfl⟩⟩ := execTblRemove_next h
    · simp [SameKey]
    · simpa [SameKey, hashesTheKey] using lookedUp_keeps_other_core k s
    · simpa [SameKey, hashesTheKey] using lookedUp_keeps_other_core k s
  | tblDist =>
    obtain ⟨-, rfl⟩ | ⟨-, -, rfl⟩ | ⟨-, -, rfl⟩ := execTblDist_next h <;> simp [SameKey, hashesTheKey]
  | tblColl =>
    obtain ⟨-, rfl⟩ | ⟨-, rfl⟩ := execTblColl_next h <;> simp [SameKey, hashesTheKey]
  | tblSize =>
    obtain ⟨-, rfl⟩ | ⟨-, rfl⟩ := execTblSize_next h <;> simp [SameKey, hashesTheKey]

end Sys2Proof.Machine
end

section
/-! PROOFS. The layout of STATUS (10_state.md R26): a concatenation of fields is, as a number, the sum of the fields at
their weights. -/

namespace Sys2Proof.Machine

/-- The lower part of a concatenation has its own weight, the upper part the weight of the lower part's width. -/
theorem toNat_append_eq_add {m n : Nat} (x : BitVec m) (y : BitVec n) :
    (x ++ y).toNat = 2 ^ n * x.toNat + y.toNat := by
  rw [BitVec.toNat_append, ← Nat.shiftLeft_add_eq_or_of_lt y.isLt, Nat.shiftLeft_eq, Nat.mul_comm]

theorem toNat_hselBit (h : Hasher) : (hselBit h).toNat = if h = .mur then 1 else 0 := by
  cases h <;> rfl

theorem toNat_minneg (s : State) : (minneg s).toNat = if s.digest = 0x80000000#32 then 1 else 0 := by
  unfold minneg
  split
  · rw [decide_eq_true ‹_›]; rfl
  · rw [decide_eq_false ‹_›]; rfl

/-- Settles O11. -/
theorem statusWordLayout : Obligations.StatusWordLayout := by
  intro s
  simp only [statusWord, toNat_append_eq_add, BitVec.toNat_ofBool, toNat_hselBit, toNat_minneg, BitVec.toNat_zero]
  omega

end Sys2Proof.Machine
end

section
/-! PROOFS. The port (20_memory.md R66, R67): what each transaction does at each of the 64 offsets, and that the port
has no other offset. -/

namespace Sys2Proof.Machine

/-! ### The offsets (R66, R45) -/

theorem portOffset_iff {off : Nat} : portOffset off = true ↔ off % 4 = 0 ∧ off ≤ 0xFC := by
  simp [portOffset]

theorem regAt_eq_some {off : Nat} {r : Reg} : regAt off = some r ↔ off = regOffset r := by
  constructor
  · intro h
    unfold regAt at h
    split at h <;> cases h <;> rfl
  · rintro rfl
    cases r <;> rfl

/-! ### Reads (R45) -/

/-- The registers in the order of the register map. -/
def registers : List Reg :=
  [.cmd, .arg, .status, .result, .digest, .idx, .fnvAcc, .murH, .murTail, .murLen, .keylen, .buckets, .size, .id,
   .capKey, .capBuckets, .capEntries]

theorem portMap_eq_map (s : State) : portMap s = registers.map fun r => (regOffset r, regValue s r) := rfl

theorem lookup_portMap_regOffset (s : State) (r : Reg) : (portMap s).lookup (regOffset r) = some (regValue s r) := by
  cases r <;> rfl

/-- A read gives what the register map lists, and 0 where it lists nothing. -/
theorem hostRead_eq_lookup (off : Nat) (s : State) : hostRead off s = ((portMap s).lookup off).getD 0 := by
  unfold hostRead
  cases h : regAt off with
  | some r => rw [regAt_eq_some.1 h, lookup_portMap_regOffset, Option.getD_some]
  | none =>
    have hne (r : Reg) : off ≠ regOffset r := fun he => by simp [regAt_eq_some.2 he] at h
    have hlookup : (portMap s).lookup off = none := by
      rw [portMap_eq_map, List.lookup_eq_none_iff]
      simp [hne]
    rw [hlookup, Option.getD_none]

/-- No register shows the host's side of the port. -/
theorem portMap_setHostSide (s : State) (q : List Txn) (r : List Word) :
    portMap { s with port := q, returned := r } = portMap s := rfl

theorem hostRead_setHostSide (off : Nat) (s : State) (q : List Txn) (r : List Word) :
    hostRead off { s with port := q, returned := r } = hostRead off s := by
  rw [hostRead_eq_lookup, hostRead_eq_lookup, portMap_setHostSide]

/-! ### Transactions at the offsets of the port (R66) -/

section
variable {off : Nat} (s : State)

theorem perform_read (h : off % 4 = 0) (hle : off ≤ 0xFC) :
    perform (.read off) s = .next { s with returned := s.returned ++ [hostRead off s] } := by
  rw [perform, if_pos (portOffset_iff.2 ⟨h, hle⟩)]

theorem perform_write_cmd (w : Word) : perform (.write 0x00 w) s = execute w s := rfl

theorem perform_write_arg (v : Word) : perform (.write 0x04 v) s = .next { s with arg := v } := rfl

/-- Neither CMD nor ARG: the write is ignored. -/
theorem perform_write_other (v : Word) (h : off % 4 = 0) (hle : off ≤ 0xFC) (hcmd : off ≠ 0x00) (harg : off ≠ 0x04) :
    perform (.write off v) s = .next s := by
  rw [perform, if_pos (portOffset_iff.2 ⟨h, hle⟩), hostWrite]
  split
  · exact absurd (regAt_eq_cmd.1 ‹_›) hcmd
  · exact absurd (regAt_eq_arg.1 ‹_›) harg
  · rfl

theorem perform_write_command {w : Word} {i : Instr} (h : decode w = .ok i) :
    perform (.write 0x00 w) s = exec i s := by
  rw [perform_write_cmd, execute, h]

/-! ### Transactions the port does not have (U11, log 5) -/

theorem perform_write_refused (v : Word) (h : off % 4 ≠ 0 ∨ off > 0xFC) :
    perform (.write off v) s = .refused (.portAccess off) := by
  rw [perform, if_neg (by rw [portOffset_iff]; omega)]

theorem perform_read_refused (h : off % 4 ≠ 0 ∨ off > 0xFC) :
    perform (.read off) s = .refused (.portAccess off) := by
  rw [perform, if_neg (by rw [portOffset_iff]; omega)]

end

/-! ### The step -/

/-- A step with a transaction waiting takes it off the queue and performs it. -/
theorem step_of_port {s : State} {x : Txn} {xs : List Txn} (h : s.port = x :: xs) :
    step s = perform x { s with port := xs } := by
  rw [step, nextTxn, h]

theorem step_withFetchWord (s : State) (nbits : Nat) (w : Word) :
    step (s.withFetchWord nbits w.toNat) = perform (.write 0x00 w) s := by
  rw [step_of_port (withFetchWord_port ..), BitVec.ofNat_toNat, BitVec.setWidth_eq]
  rfl

/-- Settles O5. -/
theorem stepRunsTheDecodedCommand : Obligations.StepRunsTheDecodedCommand := by
  intro s w i rest hw
  refine ⟨fun hq => ?_, ?_⟩
  · rw [step_of_port hq, perform_write_command _ hw]
  · rw [step_withFetchWord, perform_write_command _ hw]

/-- Settles O6: a write goes by its offset, a read by the register map, which does not show the queue. -/
theorem portTransactionEffects : Obligations.PortTransactionEffects := by
  intro s off v rest h hle
  refine ⟨fun hq => ?_, fun hq => ?_⟩
  · rw [step_of_port hq]
    by_cases hcmd : off = 0x00
    · rw [if_pos hcmd, hcmd, perform_write_cmd]
    by_cases harg : off = 0x04
    · rw [if_neg hcmd, if_pos harg, harg, perform_write_arg]
    · rw [if_neg hcmd, if_neg harg, perform_write_other _ _ h hle hcmd harg]
  · rw [step_of_port hq, perform_read _ h hle, hostRead_eq_lookup, portMap_setHostSide s rest s.returned]

theorem exec_keyPush_of_room {s : State} (b : Byte) (h : s.keylen.toNat < s.cfg.keyMax) :
    exec (.keyPush b) s = .next { s with
      keybuf := writeBytes s.keybuf s.keylen.toNat (immOperand b) 1, keylen := s.keylen + 1, err := 0 } :=
  (if_neg h.ne).trans (pushBytes_of_room (n := 1) _ h)

/-- The spec's own example of a CMD write that is not idempotent: `KEY_PUSH` twice pushes two bytes. -/
theorem keyPush_not_idempotent :
    performAll [.write 0x00 0x00000011, .write 0x00 0x00000011] State.reset ≠
      perform (.write 0x00 0x00000011) State.reset := by
  have hpush {s : State} (h : s.keylen.toNat < s.cfg.keyMax) :=
    (perform_write_command s (show decode 0x00000011 = .ok (.keyPush 0x00) by decide)).trans
      (exec_keyPush_of_room 0x00 h)
  rw [performAll_cons_next (hpush (by decide)), performAll_cons_next (hpush (by decide)), performAll_nil,
    hpush (by decide)]
  intro h
  have hlen : (2 : Word) = 1 := congrArg State.keylen (Host.Outcome.next.inj h)
  exact absurd hlen (by decide)

/-- Settles O7. -/
theorem readsHaveNoSideEffect : Obligations.ReadsHaveNoSideEffect := by
  refine ⟨fun s off h hle => ⟨hostRead off s, ?_⟩, fun s v => ?_, fun s off v => perform_write_other s v, ?_⟩
  · rw [performAll_cons_next (perform_read s h hle), performAll_cons_next (perform_read _ h hle), performAll_nil,
      hostRead_setHostSide off s s.port, List.append_assoc]
    rfl
  · rw [performAll_cons_next (perform_write_arg s v), performAll_cons_next (perform_write_arg _ v)]
    rfl
  · exact ⟨State.reset, 0x00000011, keyPush_not_idempotent⟩

/-- Settles O8. -/
theorem portRefusesOtherOffsets : Obligations.PortRefusesOtherOffsets := by
  intro s off v rest h
  refine ⟨fun hq => ?_, fun hq => ?_⟩
  · rw [step_of_port hq, perform_write_refused _ v h]
  · rw [step_of_port hq, perform_read_refused _ h]

end Sys2Proof.Machine
end

section
/-! PROOFS. The key buffer (20_memory.md R61, R62): MemRead gives back what MemWrite wrote. -/

namespace Sys2Proof.Machine

/-- The little-endian word of a word's low bytes is the word cut to them. -/
theorem leWord_map_byteOf (v : Word) (n : Nat) :
    leWord ((List.range n).map (byteOf v)) = (v.setWidth (8 * n)).setWidth 32 := by
  induction n with
  | zero => rw [Nat.mul_zero, BitVec.of_length_zero (x := v.setWidth 0)]; rfl
  | succ n ih =>
    rw [List.range_succ, List.map_append, List.map_singleton, leWord_snoc, ih, List.length_map, List.length_range]
    ext i hi
    simp only [or32, shl32, zext32, byteOf, BitVec.getElem_or, BitVec.getElem_setWidth, BitVec.getElem_shiftLeft,
      BitVec.getLsbD_setWidth, BitVec.getLsbD_extractLsb']
    by_cases hlow : i < 8 * n
    · simp [hlow, show i < 8 * (n + 1) by omega]
    · have hbyte : i - 8 * n < 8 ↔ i < 8 * (n + 1) := by omega
      simp [hlow, hbyte, Nat.add_sub_of_le (Nat.le_of_not_lt hlow)]

theorem memBytes_writeBytes (m : List Host.Cell) (a : Nat) (v : Word) (n : Nat) :
    memBytes (writeBytes m a v n) a n = some ((List.range n).map (byteOf v)) := by
  refine memBytes_eq_some.2 ⟨by simp, fun j hj => ?_⟩
  rw [List.length_map, List.length_range] at hj
  rw [read_writeBytes_in _ _ _ hj, List.getElem_map, List.getElem_range]

theorem memRead_of_memWrite {s t : State} {a n : Nat} {v : Word} (h : memWrite s a n v = some t)
    (hn : a + n ≤ s.keylen.toNat) : memRead t a n = some ((v.setWidth (8 * n)).setWidth 32) := by
  obtain ⟨-, rfl⟩ := memWrite_eq_some.1 h
  exact memRead_eq_some.2 ⟨hn, _, memBytes_writeBytes _ _ _ _, (leWord_map_byteOf v n).symm⟩

/-- Settles O24: one byte and all four of a word. -/
theorem memReadGivesWhatMemWriteWrote : Obligations.MemReadGivesWhatMemWriteWrote := by
  intro s t a v
  refine ⟨memRead_of_memWrite, fun h hn => ?_⟩
  have hall : (v.setWidth (8 * 4)).setWidth 32 = v := by simp
  rw [memRead_of_memWrite h hn, hall]

end Sys2Proof.Machine
end

section
/-! PROOFS. Nothing stops the block (60_exceptions.md R211): where the invariant holds the current key can be read and a
push that is not refused has room, so the guards of R61 are not reached. -/

namespace Sys2Proof.Machine

/-- The bytes with a value are those of the current key (R30), so all of it can be read. -/
theorem Inv.currentKey_eq {s : State} (h : Inv s) : currentKey s = some (s.keybuf.map Prod.snd) := by
  obtain ⟨-, hkeys⟩ := h.key
  have hlen : s.keybuf.length = s.keylen.toNat := by simpa using congrArg List.length hkeys
  have hrising : cellsRising s.keybuf = true := by
    rw [cellsRising_iff, hkeys]
    exact List.pairwise_lt_range
  refine memBytes_eq_some.2 ⟨by rw [List.length_map, hlen], fun j hj => ?_⟩
  rw [List.length_map] at hj
  have hpos : s.keybuf[j].1 = j := by
    have := List.getElem_of_eq hkeys (i := j) (by simpa using hj)
    simpa using this
  rw [Nat.zero_add, List.getElem_map]
  exact cellsGet_of_mem hrising (List.mem_of_getElem (h := hj) (Prod.ext hpos rfl))

/-- The answer is a next state. -/
def Answers (r : Result) : Prop := ∃ t, r = .next t

theorem answers_next (t : State) : Answers (.next t) := ⟨t, rfl⟩

theorem Answers.ne_fault {r : Result} (h : Answers r) (f : Fault) : r ≠ .fault f := by
  obtain ⟨t, rfl⟩ := h
  nofun

theorem Answers.ite {c : Prop} [Decidable c] {x y : Result} (hx : c → Answers x) (hy : ¬ c → Answers y) :
    Answers (if c then x else y) := by
  split
  · exact hx ‹_›
  · exact hy ‹_›

theorem answers_finish (s : State) : Answers (finish s) := answers_next _

theorem answers_fail (c : ErrCode) (s : State) : Answers (fail c s) := answers_next _

section
variable {s : State}

theorem answers_pushBytes {n : Nat} (v : Word) (h : s.keylen.toNat + n ≤ s.cfg.keyMax) : Answers (pushBytes n v s) :=
  ⟨_, pushBytes_of_room v h⟩

theorem answers_withTable {r : Result} (h : Answers r) : Answers (withTable s r) :=
  .ite (fun _ => h) fun _ => answers_fail .enotbl s

theorem Inv.answers_withHashedKey (hs : Inv s) {f : State → Key → Result} (hf : ∀ u k, Answers (f u k)) :
    Answers (withHashedKey s f) := by
  rw [withHashedKey_of_currentKey hs.currentKey_eq]
  exact hf _ _

/-- Every command answers: the key it hashes can be read, and a push that passes its check has room (R61, R211). -/
theorem Inv.exec_answers (hs : Inv s) (i : Instr) : Answers (exec i s) := by
  have hkeylen := hs.key.1
  cases i with
  | nop | clrErr | keyClr | fnvInit | fnvByte | fnvFinal | murInit | murFinal => exact answers_finish _
  | keyPush b => exact .ite (fun _ => answers_fail _ s) fun hne => answers_pushBytes (n := 1) _ (by omega)
  | keyPushw => exact .ite (fun _ => answers_fail _ s) fun hroom => answers_pushBytes (n := 4) _ (by omega)
  | fnvKey =>
    show Answers (execFnvKey s)
    rw [execFnvKey, fnvKeyWrites_of_currentKey hs.currentKey_eq]
    exact answers_finish _
  | murByte b =>
    exact .ite (fun _ => answers_fail _ s) fun _ => .ite (fun _ => answers_finish _) fun _ => answers_finish _
  | murBlock =>
    exact .ite (fun _ => answers_fail _ s) fun _ => .ite (fun _ => answers_fail _ s) fun _ => answers_finish _
  | murKey =>
    show Answers (execMurKey s)
    rw [execMurKey, murKeyWrites_of_currentKey hs.currentKey_eq]
    exact answers_finish _
  | tblInit sel =>
    exact .ite (fun _ => answers_fail _ s) fun _ => .ite (fun _ => answers_fail _ s) fun _ => answers_finish _
  | tblDiscard | tblColl | tblSize => exact answers_withTable (answers_finish _)
  | tblAdd =>
    exact answers_withTable <| .ite (fun _ => answers_fail _ s) fun _ =>
      hs.answers_withHashedKey fun _ _ => answers_finish _
  | tblContains =>
    refine answers_withTable (hs.answers_withHashedKey fun u k => ?_)
    cases findKey k (idxChain u) <;> exact answers_finish _
  | tblRemove =>
    refine answers_withTable (hs.answers_withHashedKey fun u k => ?_)
    cases findKey k (idxChain u) with
    | none => exact answers_fail _ _
    | some j => exact answers_finish _
  | tblDist => exact answers_withTable (.ite (fun _ => answers_fail _ s) fun _ => answers_finish _)

theorem Inv.execute_answers (hs : Inv s) (w : Word) : Answers (execute w s) := by
  unfold execute
  split
  · exact hs.exec_answers _
  · exact answers_fail .eill s

theorem Inv.hostWrite_answers (hs : Inv s) (off : Nat) (v : Word) : Answers (hostWrite off v s) := by
  unfold hostWrite
  split
  · exact hs.execute_answers v
  · exact answers_next _
  · exact answers_next _

/-- A transaction answers or, at an offset the port does not have, is refused. -/
theorem Inv.perform_ne_fault (hs : Inv s) (x : Txn) (f : Fault) : perform x s ≠ .fault f := by
  cases x with
  | write off v =>
    rw [perform]
    split
    · exact (hs.hostWrite_answers off v).ne_fault f
    · nofun
  | read off =>
    rw [perform]
    split
    · nofun
    · nofun
  | reset => exact (answers_next _).ne_fault f

end

/-- Settles O16. -/
theorem noCommandStopsTheBlock : Obligations.NoCommandStopsTheBlock := by
  refine ⟨fun i s hs => hs.exec_answers i, fun s f hs => ?_⟩
  cases hq : s.port with
  | nil => rw [idleBlockDoesNothing s hq]; exact (answers_next s).ne_fault f
  | cons x xs =>
    rw [step_of_port hq]
    exact (hs.setHostSide s.arg xs s.returned).perform_ne_fault x f

end Sys2Proof.Machine
end

section
/-! PROOFS. The encoding (30_encoding.md R84, R87, R88): decoding a word to a command and the word being that command's
encoding are the same, and a row of the opcode table is the words of its command. -/

namespace Sys2Proof

/-! ### A word is determined by its fields (R81, R88) -/

theorem toNat_selBit_selField (w : Word) : (selBit (selField w)).toNat = w.toNat / 2 ^ 8 % 2 := by
  have hbit : w.getLsbD 8 = decide (w.toNat / 2 ^ 8 % 2 = 1) := Nat.testBit_eq_decide_div_mod_eq
  rw [selField, hbit]
  obtain h | h := Nat.mod_two_eq_zero_or_one (w.toNat / 2 ^ 8) <;> rw [h] <;> rfl

theorem encodeS_toNat (op : Byte) (sel : Hasher) : (encodeS op sel).toNat = op.toNat + 256 * (selBit sel).toNat := by
  have := op.isLt
  cases sel with
  | fnv => simp [encodeS, selBit]; omega
  | mur => simp [encodeS, selBit]; omega

theorem eq_encodeNA {w : Word} {op : Byte} (hop : opcodeField w = op) (hup : upperNA w = 0) : w = encodeNA op := by
  rw [opcodeField_eq_iff] at hop
  rw [upperNA_eq_zero_iff] at hup
  rw [← BitVec.toNat_inj, encodeNA_toNat]
  omega

theorem eq_encodeB {w : Word} {op : Byte} (hop : opcodeField w = op) (hup : upperB w = 0) :
    w = encodeB op (imm8Field w) := by
  rw [opcodeField_eq_iff] at hop
  rw [upperB_eq_zero_iff] at hup
  rw [← BitVec.toNat_inj, encodeB_toNat, imm8Field_toNat]
  omega

theorem eq_encodeS {w : Word} {op : Byte} (hop : opcodeField w = op) (hup : upperS w = 0) :
    w = encodeS op (selField w) := by
  rw [opcodeField_eq_iff] at hop
  rw [upperS_eq_zero_iff] at hup
  rw [← BitVec.toNat_inj, encodeS_toNat, toNat_selBit_selField]
  omega

@[simp] theorem opcodeField_encodeB (op imm8 : Byte) : opcodeField (encodeB op imm8) = op := by
  rw [opcodeField_eq_iff, encodeB_toNat]
  omega

@[simp] theorem imm8Field_encodeB (op imm8 : Byte) : imm8Field (encodeB op imm8) = imm8 := by
  rw [← BitVec.toNat_inj, imm8Field_toNat, encodeB_toNat]
  omega

@[simp] theorem upperB_encodeB (op imm8 : Byte) : upperB (encodeB op imm8) = 0 := by
  rw [upperB_eq_zero_iff, encodeB_toNat]
  omega

@[simp] theorem opcodeField_encodeS (op : Byte) (sel : Hasher) : opcodeField (encodeS op sel) = op := by
  rw [opcodeField_eq_iff, encodeS_toNat]
  omega

@[simp] theorem upperS_encodeS (op : Byte) (sel : Hasher) : upperS (encodeS op sel) = 0 := by
  have := op.isLt
  rw [upperS_eq_zero_iff, encodeS_toNat]
  cases sel <;> simp [selBit] <;> omega

/-! ### What the decoder can answer (R87) -/

/-- Format B, legal: the converse of the first case of `decode_ok`. -/
theorem decode_of_decodeB {w : Word} {i : Instr} (h : decodeB (opcodeField w) w = some i) (hup : upperB w = 0) :
    decode w = .ok i := by
  simp only [decode, h, hup]
  rfl

/-- A command comes from one of the three field layouts, with the bits zero that the layout requires to be. -/
theorem decode_ok {w : Word} {i : Instr} (h : decode w = .ok i) :
    (decodeB (opcodeField w) w = some i ∧ upperB w = 0) ∨
    (opcodeField w = 0x40 ∧ upperS w = 0 ∧ i = .tblInit (selField w)) ∨
    (decodeNA (opcodeField w) = some i ∧ upperNA w = 0) := by
  simp only [decode] at h
  split at h
  · split at h
    · cases h
    · cases h; exact .inl ⟨‹_›, not_not.1 ‹_›⟩
  · split at h
    · split at h
      · cases h
      · cases h; exact .inr (.inl ⟨‹_›, not_not.1 ‹_›, rfl⟩)
    · split at h
      · split at h
        · cases h
        · cases h; exact .inr (.inr ⟨‹_›, not_not.1 ‹_›⟩)
      · cases h

theorem encode_of_decodeB {op : Byte} {w : Word} {i : Instr} (h : decodeB op w = some i) :
    encode i = encodeB op (imm8Field w) := by
  unfold decodeB at h
  split_ifs at h <;> cases h <;> subst op <;> rfl

/-- One line of the decoder for formats N and A: its command is encoded by its opcode alone. -/
theorem encode_of_decodeNA_line {op c : Byte} {a i : Instr} {rest : Option Instr} (ha : encode a = encodeNA c)
    (hrest : rest = some i → encode i = encodeNA op) (h : (if op = c then some a else rest) = some i) :
    encode i = encodeNA op := by
  split at h
  · cases h
    rw [ha, ‹op = c›]
  · exact hrest h

theorem encode_of_decodeNA {op : Byte} {i : Instr} : decodeNA op = some i → encode i = encodeNA op := by
  unfold decodeNA
  iterate 18 refine encode_of_decodeNA_line rfl ?_
  exact nofun

/-! ### Decoding and encoding are inverse -/

theorem decode_encode (i : Instr) : decode (encode i) = .ok i := by
  cases i with
  | keyPush b | fnvByte b | murByte b => exact decode_of_decodeB (by simp [encode, decodeB]) (upperB_encodeB _ b)
  | tblInit sel => cases sel <;> rfl
  | nop | clrErr | keyClr | keyPushw | fnvInit | fnvFinal | fnvKey | murInit | murBlock | murFinal | murKey
  | tblDiscard | tblAdd | tblContains | tblRemove | tblDist | tblColl | tblSize => rfl

/-- The words that decode to a command are its encoding and no other. -/
theorem decode_eq_ok_iff {w : Word} {i : Instr} : decode w = .ok i ↔ w = encode i := by
  constructor
  · intro h
    obtain ⟨hB, hup⟩ | ⟨hop, hup, rfl⟩ | ⟨hNA, hup⟩ := decode_ok h
    · rw [encode_of_decodeB hB]; exact eq_encodeB rfl hup
    · exact eq_encodeS hop hup
    · rw [encode_of_decodeNA hNA]; exact eq_encodeNA rfl hup
  · rintro rfl
    exact decode_encode i

/-- Settles O1: the decoder of table words is the decoder of words. -/
theorem decodeOfEncodeIsTheCommand : Obligations.DecodeOfEncodeIsTheCommand := by
  intro i _
  refine ⟨decode_encode i, ?_⟩
  rw [decodeTableWord_toNat, decode_encode]
  rfl

/-- Settles O4: the legal words are encodings; the illegal ones are evaluated. -/
theorem sampleWordsDecode : Obligations.SampleWordsDecode :=
  ⟨decode_encode .clrErr, decode_encode (.keyPush 0x48), decode_encode .keyPushw, decode_encode (.fnvByte 0xFF),
    decode_encode (.murByte 0x00), decode_encode (.tblInit .fnv), decode_encode (.tblInit .mur),
    decode_encode .tblRemove, rfl, rfl, rfl, rfl⟩

/-! ### The rows of the opcode table (R84) -/

/-- The bits of a word that are not its command's operand (R81); `opcodeTable_eq_map_rowOf` shows that they are the masks
of R84. -/
def fixedBits : Instr → Word
  | .keyPush _ | .fnvByte _ | .murByte _ => 0xFFFF00FF
  | .tblInit _ => 0xFFFFFEFF
  | .nop | .clrErr | .keyClr | .keyPushw | .fnvInit | .fnvFinal | .fnvKey | .murInit | .murBlock | .murFinal | .murKey
  | .tblDiscard | .tblAdd | .tblContains | .tblRemove | .tblDist | .tblColl | .tblSize => BitVec.allOnes 32

/-- A command's row, from the encoder. -/
def rowOf (i : Instr) : OpcodeRow := ⟨mnemonic i, encode i &&& fixedBits i, fixedBits i⟩

/-- The table is the row of each command, the operand left at zero. -/
theorem opcodeTable_eq_map_rowOf : opcodeTable =
    [Instr.nop, .clrErr, .keyClr, .keyPush 0, .keyPushw, .fnvInit, .fnvByte 0, .fnvFinal, .fnvKey, .murInit, .murByte 0,
      .murBlock, .murFinal, .murKey, .tblInit .fnv, .tblDiscard, .tblAdd, .tblContains, .tblRemove, .tblDist, .tblColl,
      .tblSize].map rowOf := by decide

theorem exists_rowOf_of_mem {row : OpcodeRow} (h : row ∈ opcodeTable) : ∃ i, rowOf i = row := by
  rw [opcodeTable_eq_map_rowOf] at h
  obtain ⟨i, -, hi⟩ := List.mem_map.1 h
  exact ⟨i, hi⟩

theorem nodup_mnemonics : (opcodeTable.map OpcodeRow.mnemonic).Nodup := by decide

theorem row_eq_of_mnemonic_eq {row row' : OpcodeRow} (h : row ∈ opcodeTable) (h' : row' ∈ opcodeTable)
    (hm : row.mnemonic = row'.mnemonic) : row = row' :=
  List.inj_on_of_nodup_map nodup_mnemonics h h' hm

/-- The family TableRow as one statement over all commands. -/
theorem encode_matches_its_row (i : Instr) : Laws.TableRow.Statement i := by
  open Laws.TableRow in
  cases i
  exacts [nop, clrErr, keyClr, keyPush _, keyPushw, fnvInit, fnvByte _, fnvFinal, fnvKey, murInit, murByte _, murBlock,
    murFinal, murKey, tblInit _, tblDiscard, tblAdd, tblContains, tblRemove, tblDist, tblColl, tblSize]

/-- Two words that agree under a mask agree on every field the mask covers. -/
theorem extractLsb'_eq_of_and_eq {w v m : Word} {lo n : Nat} (hm : m.extractLsb' lo n = BitVec.allOnes n)
    (h : w &&& m = v &&& m) : w.extractLsb' lo n = v.extractLsb' lo n := by
  have hfield := congrArg (BitVec.extractLsb' lo n) h
  simpa only [BitVec.extractLsb'_and, hm, BitVec.and_allOnes] using hfield

theorem eq_encodeB_of_and_eq {w : Word} {op b : Byte} (h : w &&& 0xFFFF00FF = encodeB op b &&& 0xFFFF00FF) :
    w = encodeB op (imm8Field w) := by
  have hop : opcodeField w = opcodeField (encodeB op b) := extractLsb'_eq_of_and_eq (by decide) h
  have hup : upperB w = upperB (encodeB op b) := extractLsb'_eq_of_and_eq (by decide) h
  rw [opcodeField_encodeB] at hop
  rw [upperB_encodeB] at hup
  exact eq_encodeB hop hup

theorem eq_encodeS_of_and_eq {w : Word} {op : Byte} {sel : Hasher}
    (h : w &&& 0xFFFFFEFF = encodeS op sel &&& 0xFFFFFEFF) : w = encodeS op (selField w) := by
  have hop : opcodeField w = opcodeField (encodeS op sel) := extractLsb'_eq_of_and_eq (by decide) h
  have hup : upperS w = upperS (encodeS op sel) := extractLsb'_eq_of_and_eq (by decide) h
  rw [opcodeField_encodeS] at hop
  rw [upperS_encodeS] at hup
  exact eq_encodeS hop hup

/-- A word that agrees with a command's on all bits but the operand's is that command's word with some operand. -/
theorem exists_encode_of_and_fixedBits_eq {w : Word} {i : Instr} (h : w &&& fixedBits i = encode i &&& fixedBits i) :
    ∃ j, w = encode j ∧ mnemonic j = mnemonic i := by
  cases i with
  | keyPush b => exact ⟨.keyPush (imm8Field w), eq_encodeB_of_and_eq h, rfl⟩
  | fnvByte b => exact ⟨.fnvByte (imm8Field w), eq_encodeB_of_and_eq h, rfl⟩
  | murByte b => exact ⟨.murByte (imm8Field w), eq_encodeB_of_and_eq h, rfl⟩
  | tblInit sel => exact ⟨.tblInit (selField w), eq_encodeS_of_and_eq h, rfl⟩
  | nop | clrErr | keyClr | keyPushw | fnvInit | fnvFinal | fnvKey | murInit | murBlock | murFinal | murKey
  | tblDiscard | tblAdd | tblContains | tblRemove | tblDist | tblColl | tblSize =>
    exact ⟨_, by simpa only [fixedBits, BitVec.and_allOnes] using h, rfl⟩

/-- R84's rule for one row: from the mask to the command by the row's fixed bits, and back because a command's word
matches its row and no other row has its mnemonic. -/
theorem matches_row_iff {row : OpcodeRow} (hrow : row ∈ opcodeTable) {w : Word} :
    w &&& row.mask = row.pattern ↔ ∃ i, decode w = .ok i ∧ mnemonic i = row.mnemonic := by
  constructor
  · intro h
    obtain ⟨i, rfl⟩ := exists_rowOf_of_mem hrow
    obtain ⟨j, hw, hm⟩ := exists_encode_of_and_fixedBits_eq h
    exact ⟨j, decode_eq_ok_iff.2 hw, hm⟩
  · rintro ⟨i, hi, hm⟩
    obtain ⟨own, hmem, hown, hmatch⟩ := encode_matches_its_row i
    obtain rfl := row_eq_of_mnemonic_eq hmem hrow (hown.trans hm)
    rwa [decode_eq_ok_iff.1 hi]

/-- Settles O2. -/
theorem wordsEncodeExactlyTheirRow : Obligations.WordsEncodeExactlyTheirRow := by
  refine ⟨rfl, nodup_mnemonics, fun row hrow w => matches_row_iff hrow, fun row hrow row' hrow' w h h' => ?_⟩
  obtain ⟨i, hi, hm⟩ := (matches_row_iff hrow).1 h
  obtain ⟨j, hj, hm'⟩ := (matches_row_iff hrow').1 h'
  obtain rfl : i = j := Except.ok.inj (hi.symm.trans hj)
  exact row_eq_of_mnemonic_eq hrow hrow' (hm.symm.trans hm')

end Sys2Proof
end

section
/-! PROOFS. The control commands (40_control_and_key.md R101, R102). -/

namespace Sys2Proof.Machine

/-- Settles O17. -/
theorem nopOnlyWritesErr : Obligations.NopOnlyWritesErr :=
  ⟨decode_encode .nop, fun _ => rfl⟩

/-- A command that clears `ERRS` is `CLR_ERR`: a failing one sets it, any other keeps it. -/
theorem eq_clrErr_of_errs_cleared {i : Instr} {s t : State} (h : exec i s = .next t) (hs : s.errs = true)
    (ht : t.errs = false) : i = .clrErr := by
  obtain ⟨herrs, -⟩ := exec_next_errs_port h
  by_contra hi
  rw [if_neg hi, hs, ite_self, ht] at herrs
  cases herrs

/-- Settles O18. -/
theorem clrErrClearsTheFlags : Obligations.ClrErrClearsTheFlags :=
  ⟨decode_encode .clrErr, fun _ => rfl, fun _ _ _ => eq_clrErr_of_errs_cleared⟩

end Sys2Proof.Machine
end

section
/-! PROOFS. The key-buffer commands (40_control_and_key.md R103 to R106): what a push does with room and without, and
the key a list of pushes loads. -/

namespace Sys2Proof.Machine

/-! ### KEY_CLR (R103) -/

theorem exec_keyClr (s : State) :
    exec .keyClr s = .next { s with keylen := 0, keybuf := Memory.unspecified, err := 0 } := rfl

/-- Settles O20. -/
theorem keyClrEmptiesTheKey : Obligations.KeyClrEmptiesTheKey :=
  ⟨decode_encode .keyClr, fun s => ⟨_, exec_keyClr s, rfl, rfl⟩⟩

/-! ### The bytes of an operand (R61, R63) -/

theorem byteOf_toNat (v : Word) (j : Nat) : (byteOf v j).toNat = v.toNat / 2 ^ (8 * j) % 256 := by
  simp [byteOf, Nat.shiftRight_eq_div_pow]

theorem byteOf_immOperand (b : Byte) : byteOf (immOperand b) 0 = b := by
  refine BitVec.eq_of_toNat_eq ?_
  rw [byteOf_toNat, immOperand, zext32, BitVec.toNat_setWidth]
  omega

/-- The operand of R106 has the four key bytes in the order `KEY_PUSHW` takes them. -/
theorem map_byteOf_sum (b0 b1 b2 b3 : Byte) :
    (List.range 4).map
      (byteOf (b0.setWidth 32 + 2 ^ 8 * b1.setWidth 32 + 2 ^ 16 * b2.setWidth 32 + 2 ^ 24 * b3.setWidth 32)) =
      [b0, b1, b2, b3] := by
  generalize hv : b0.setWidth 32 + 2 ^ 8 * b1.setWidth 32 + 2 ^ 16 * b2.setWidth 32 + 2 ^ 24 * b3.setWidth 32 = v
  have hsum : v.toNat = b0.toNat + 2 ^ 8 * b1.toNat + 2 ^ 16 * b2.toNat + 2 ^ 24 * b3.toNat := by
    have hpow : (2 : Word) ^ 8 = 0x100 ∧ (2 : Word) ^ 16 = 0x10000 ∧ (2 : Word) ^ 24 = 0x1000000 := by decide
    obtain ⟨h8, h16, h24⟩ := hpow
    rw [h8, h16, h24] at hv
    bv_omega
  have hbyte {j : Nat} {b : Byte} (h : v.toNat / 2 ^ (8 * j) % 256 = b.toNat) : byteOf v j = b :=
    BitVec.eq_of_toNat_eq ((byteOf_toNat v j).trans h)
  show [byteOf v 0, byteOf v 1, byteOf v 2, byteOf v 3] = [b0, b1, b2, b3]
  rw [hbyte (b := b0) (by omega), hbyte (b := b1) (by omega), hbyte (b := b2) (by omega), hbyte (b := b3) (by omega)]

/-! ### One push (R104, R105) -/

section
variable {s : State} {k : Key}

theorem exec_keyPush_full (b : Byte) (h : s.keylen.toNat = s.cfg.keyMax) :
    exec (.keyPush b) s = .next (raise .ekeyovf s) := if_pos h

theorem exec_keyPushw_of_room (h : s.keylen.toNat + 4 ≤ s.cfg.keyMax) :
    exec .keyPushw s = .next { s with
      keybuf := writeBytes s.keybuf s.keylen.toNat s.arg 4, keylen := s.keylen + 4, err := 0 } :=
  (if_neg (Nat.not_lt.2 h)).trans (pushBytes_of_room (n := 4) _ h)

theorem exec_keyPushw_full (h : s.keylen.toNat + 4 > s.cfg.keyMax) :
    exec .keyPushw s = .next (raise .ekeyovf s) := if_pos h

/-- KEY_MAX is below 2^31 (R6), so KEYLEN does not wrap. -/
theorem keyMax_lt (hwf : s.cfg.wf = true) : s.cfg.keyMax < 2 ^ 31 :=
  (inv_resetWith hwf).config_bounds.1

theorem toNat_keylen_add {n : Nat} (hwf : s.cfg.wf = true) (h : s.keylen.toNat + n ≤ s.cfg.keyMax) :
    (s.keylen + BitVec.ofNat 32 n).toNat = s.keylen.toNat + n := by
  have hmax := keyMax_lt hwf
  rw [BitVec.toNat_add, BitVec.toNat_ofNat]
  omega

/-- A push that fits appends to the current key, whatever it is, and changes nothing else but ERR. -/
theorem exec_keyPush_appends (b : Byte) (hwf : s.cfg.wf = true) (hk : currentKey s = some k)
    (hroom : k.length < s.cfg.keyMax) :
    ∃ t, exec (.keyPush b) s = .next t ∧ currentKey t = some (k ++ [b]) ∧
      t = { s with keylen := t.keylen, keybuf := t.keybuf, err := 0 } := by
  have hkey := currentKey_push (n := 1) (immOperand b) hk (by
    have hmax := keyMax_lt hwf
    omega)
  rw [List.range_one, List.map_singleton, byteOf_immOperand] at hkey
  exact ⟨_, exec_keyPush_of_room b (by rwa [← currentKey_length hk]), hkey, rfl⟩

theorem exec_keyPushw_appends (hwf : s.cfg.wf = true) (hk : currentKey s = some k)
    (hroom : k.length + 4 ≤ s.cfg.keyMax) :
    ∃ t, exec .keyPushw s = .next t ∧ currentKey t = some (k ++ (List.range 4).map (byteOf s.arg)) := by
  have hkey := currentKey_push (n := 4) s.arg hk (by
    have hmax := keyMax_lt hwf
    omega)
  exact ⟨_, exec_keyPushw_of_room (by rwa [← currentKey_length hk]), hkey⟩

end

/-- Settles O21. -/
theorem keyPushAppendsItsByte : Obligations.KeyPushAppendsItsByte := by
  refine ⟨fun b => decode_encode (.keyPush b), fun s b h => ⟨_, exec_keyPush_of_room b h, rfl, ?_, fun p hp => ?_⟩,
    fun s b h => exec_keyPush_full b h⟩
  · have hread := read_writeBytes_in s.keybuf s.keylen.toNat (immOperand b) (n := 1) Nat.zero_lt_one
    rwa [byteOf_immOperand] at hread
  · exact read_writeBytes_out _ _ _ (by omega)

/-- Settles O22: the push is a MemWrite, which MemRead gives back. -/
theorem keyPushwAppendsFourBytes : Obligations.KeyPushwAppendsFourBytes := by
  refine ⟨decode_encode .keyPushw, fun s h => ⟨_, exec_keyPushw_of_room h, rfl,
    fun j hj => read_writeBytes_in _ _ _ hj, fun hwf => ?_, fun p hp => read_writeBytes_out _ _ _ hp⟩,
    fun s h => exec_keyPushw_full h⟩
  refine memRead_eq_some.2 ⟨(toNat_keylen_add hwf h).ge, _, memBytes_writeBytes _ _ _ _, ?_⟩
  rw [leWord_map_byteOf]
  simp

/-! ### Lists of commands (R89) -/

theorem execAll_cons_next {i : Instr} {is : List Instr} {s t : State} (h : exec i s = .next t) :
    execAll (i :: is) s = execAll is t := by
  simp only [execAll, h]

theorem execAll_append_next {is js : List Instr} {s t : State} (h : execAll is s = .next t) :
    execAll (is ++ js) s = execAll js t := by
  induction is generalizing s with
  | nil => cases h; rfl
  | cons i is ih =>
    rw [execAll] at h
    split at h
    · rw [List.cons_append, execAll_cons_next ‹_›, ih h]
    · cases h
    · cases h

/-- Pushes that all fit: the bytes stand after the old key, and nothing else changes but ERR. -/
theorem execAll_keyPush_of_room {s : State} {k : Key} (bs : Key) (hwf : s.cfg.wf = true) (hk : currentKey s = some k)
    (hroom : k.length + bs.length ≤ s.cfg.keyMax) :
    ∃ t, execAll (bs.map .keyPush) s = .next t ∧ currentKey t = some (k ++ bs) ∧
      t = { s with keylen := t.keylen, keybuf := t.keybuf, err := t.err } ∧ (s.err = 0 → t.err = 0) := by
  induction bs generalizing s k with
  | nil => exact ⟨s, rfl, by rw [List.append_nil]; exact hk, rfl, id⟩
  | cons b bs ih =>
    rw [List.length_cons] at hroom
    obtain ⟨u, hu, hku, hframeu⟩ := exec_keyPush_appends b hwf hk (by omega)
    have hcfg : u.cfg = s.cfg := (congrArg State.cfg hframeu :)
    have herru : u.err = 0 := (congrArg State.err hframeu :)
    obtain ⟨t, ht, hkt, hframe, herr⟩ := ih (hcfg ▸ hwf) hku (by
      rw [hcfg, List.length_append, List.length_singleton]
      omega)
    refine ⟨t, ?_, ?_, hframe.trans (by rw [hframeu]), fun _ => herr herru⟩
    · rw [List.map_cons, execAll_cons_next hu, ht]
    · rw [hkt, List.append_assoc, List.singleton_append]

/-- Pushes into a full buffer: every one fails with `EKEYOVF`, and only the flags change. -/
theorem execAll_keyPush_full {s : State} {bs : Key} (h : s.keylen.toNat = s.cfg.keyMax) (hne : bs ≠ []) :
    execAll (bs.map .keyPush) s = .next (raise .ekeyovf s) := by
  induction bs generalizing s with
  | nil => exact absurd rfl hne
  | cons b bs ih =>
    rw [List.map_cons, execAll_cons_next (exec_keyPush_full b h)]
    cases bs with
    | nil => rfl
    | cons c cs => exact ih (s := raise .ekeyovf s) h (List.cons_ne_nil c cs)

/-! ### Loading a key (R106) -/

/-- A key that fits is loaded from any state: `KEY_CLR` makes the key empty, and the pushes append to it. -/
theorem execAll_keyCommands {s : State} {bs : Key} (hwf : s.cfg.wf = true) (hfit : bs.length ≤ s.cfg.keyMax) :
    ∃ t, execAll (keyCommands bs) s = .next t ∧ currentKey t = some bs ∧
      t = { s with keylen := t.keylen, keybuf := t.keybuf, err := 0 } := by
  obtain ⟨t, ht, hkt, hframe, herr⟩ := execAll_keyPush_of_room
    (s := { s with keylen := 0, keybuf := Memory.unspecified, err := 0 }) (k := []) bs hwf rfl
    (by rwa [List.length_nil, Nat.zero_add])
  rw [herr rfl] at hframe
  exact ⟨t, (execAll_cons_next (exec_keyClr s)).trans ht, hkt, hframe⟩

/-- Of a key that does not fit the bytes that do are loaded, and the last push fails. -/
theorem execAll_keyCommands_cut {s : State} {bs : Key} (hwf : s.cfg.wf = true) (hlong : s.cfg.keyMax < bs.length) :
    ∃ t, execAll (keyCommands bs) s = .next (raise .ekeyovf t) ∧ currentKey t = some (bs.take s.cfg.keyMax) := by
  have hlen : (bs.take s.cfg.keyMax).length = s.cfg.keyMax := List.length_take_of_le hlong.le
  obtain ⟨t, ht, hkt, hframe⟩ := execAll_keyCommands hwf hlen.le
  have hfull : t.keylen.toNat = t.cfg.keyMax := by
    have hcfg : t.cfg = s.cfg := (congrArg State.cfg hframe :)
    rw [← currentKey_length hkt, hlen, hcfg]
  have hsplit : keyCommands bs = keyCommands (bs.take s.cfg.keyMax) ++ (bs.drop s.cfg.keyMax).map .keyPush := by
    rw [keyCommands, keyCommands, List.cons_append, ← List.map_append, List.take_append_drop]
  refine ⟨t, ?_, hkt⟩
  rw [hsplit, execAll_append_next ht, execAll_keyPush_full hfull (List.ne_nil_of_length_pos (by simpa using hlong))]

/-- ARG and one `KEY_PUSHW` append the four bytes of the value written (R105). -/
theorem performAll_arg_keyPushw {s : State} {k : Key} (v : Word) (hwf : s.cfg.wf = true) (hk : currentKey s = some k)
    (hroom : k.length + 4 ≤ s.cfg.keyMax) :
    ∃ u, performAll [lineArg v, lineCmd .keyPushw] s = .next u ∧
      currentKey u = some (k ++ (List.range 4).map (byteOf v)) := by
  obtain ⟨u, hu, hku⟩ := exec_keyPushw_appends (s := { s with arg := v }) hwf hk hroom
  have hcmd := (perform_write_command _ (decode_encode .keyPushw)).trans hu
  exact ⟨u, (performAll_cons_next (perform_write_arg s v)).trans (performAll_cons_next hcmd), hku⟩

/-- Settles O23. -/
theorem keysAreLoadedByteByByte : Obligations.KeysAreLoadedByteByByte := by
  refine ⟨fun s bs hwf hfit => ?_, fun s b0 b1 b2 b3 k hwf hroom hk => ?_, fun s bs hwf hlong => ?_⟩
  · obtain ⟨t, ht, hkt, hframe⟩ := execAll_keyCommands hwf hfit
    exact ⟨t, ht, (currentKey_length hkt).symm, hkt, hframe⟩
  · rw [← currentKey_length hk] at hroom
    obtain ⟨t, ht, hkt, -⟩ := execAll_keyPush_of_room [b0, b1, b2, b3] hwf hk hroom
    obtain ⟨u, hu, hku⟩ := performAll_arg_keyPushw
      (b0.setWidth 32 + 2 ^ 8 * b1.setWidth 32 + 2 ^ 16 * b2.setWidth 32 + 2 ^ 24 * b3.setWidth 32) hwf hk hroom
    rw [map_byteOf_sum] at hku
    exact ⟨t, u, ht, hu, hkt, hku.trans hkt.symm⟩
  · obtain ⟨t, ht, hkt⟩ := execAll_keyCommands_cut hwf hlong
    exact ⟨_, ht, hkt, rfl, rfl⟩

end Sys2Proof.Machine
end

section
/-! PROOFS. The FNV1a Hasher (41_fnv1a.md R121 to R126): its commands, the two stages of a byte step as bijections, and
the whole-key command as the stream of its bytes. -/

namespace Sys2Proof.Machine

/-! ### The commands (R121, R122, R124, R125) -/

section
variable (s : State)

theorem exec_fnvInit : exec .fnvInit s = .next { s with fnvAcc := 0x811C9DC5, err := 0 } := rfl

theorem exec_fnvByte (b : Byte) :
    exec (.fnvByte b) s = .next { s with fnvAcc := fnvMix s.fnvAcc (zext32 b), err := 0 } := rfl

theorem exec_fnvFinal : exec .fnvFinal s = .next { s with digest := abs32 s.fnvAcc, err := 0 } := rfl

end

theorem exec_fnvKey {s : State} {k : Key} (hk : currentKey s = some k) :
    exec .fnvKey s = .next { s with fnvAcc := fnv1aRaw k, digest := fnv1a k, err := 0 } := by
  show execFnvKey s = _
  rw [execFnvKey, fnvKeyWrites_of_currentKey hk]
  rfl

/-- Settles O27. -/
theorem fnvInitSetsTheBasis : Obligations.FnvInitSetsTheBasis :=
  ⟨decode_encode .fnvInit, exec_fnvInit, rfl⟩

/-! ### One byte step (R122, R123) -/

theorem toNat_fnvMix_zext32 (acc : Word) (b : Byte) :
    (fnvMix acc (zext32 b)).toNat = (acc.toNat ^^^ b.toNat) * 0x01000193 % 2 ^ 32 := by
  have hb : (zext32 b).toNat = b.toNat := BitVec.toNat_setWidth_of_le (by decide)
  rw [fnvMix, mul32, xor32, BitVec.toNat_mul, BitVec.toNat_xor, hb]
  rfl

/-- Settles O28. -/
theorem fnvByteXorsThenMultiplies : Obligations.FnvByteXorsThenMultiplies := by
  refine ⟨fun b => decode_encode (.fnvByte b), fun s b => ?_⟩
  have hmix : fnvMix s.fnvAcc (zext32 b) = BitVec.ofNat 32 ((s.fnvAcc.toNat ^^^ b.toNat) * 0x01000193) :=
    BitVec.eq_of_toNat_eq ((toNat_fnvMix_zext32 ..).trans (BitVec.toNat_ofNat ..).symm)
  rw [exec_fnvByte, hmix]

/-- The prime as its powers of two; multiplying by each of them is a shift. -/
theorem mul32_fnvPrime_eq_shifts (t : Word) :
    mul32 t fnvPrime = shl32 t 24 + shl32 t 8 + shl32 t 7 + shl32 t 4 + shl32 t 1 + t := by
  have hprime : fnvPrime = .twoPow 32 24 + .twoPow 32 8 + .twoPow 32 7 + .twoPow 32 4 + .twoPow 32 1 + 1#32 := by
    decide
  simp only [mul32, shl32, hprime, BitVec.shiftLeft_eq_mul_twoPow, BitVec.mul_add, BitVec.mul_one]

/-- The inverse of `FNV_PRIME` modulo 2^32 that R123 gives. -/
def fnvPrimeInverse : Word := 0x359C449B

theorem mul32_mul32_of_inverse {p q : Word} (h : mul32 p q = 1) (t : Word) : mul32 (mul32 t p) q = t := by
  rw [mul32, mul32, BitVec.mul_assoc, show p * q = 1#32 from h, BitVec.mul_one]

theorem mul32_fnvPrime_inverse (t : Word) : mul32 (mul32 t fnvPrime) fnvPrimeInverse = t :=
  mul32_mul32_of_inverse (by decide) t

theorem mul32_fnvPrime_bijective : Function.Bijective fun t => mul32 t fnvPrime :=
  Function.bijective_iff_has_inverse.2
    ⟨fun t => mul32 t fnvPrimeInverse, mul32_fnvPrime_inverse, mul32_mul32_of_inverse (by decide)⟩

theorem xor32_xor32_self (a w : Word) : xor32 (xor32 a w) w = a := by
  rw [xor32, xor32, BitVec.xor_assoc, BitVec.xor_self, BitVec.xor_zero]

theorem xor32_bijective (w : Word) : Function.Bijective fun a => xor32 a w :=
  Function.Involutive.bijective fun a => xor32_xor32_self a w

/-- The byte step undone: the multiply stage first, then the XOR stage. -/
theorem fnvMix_inverse (acc w : Word) : xor32 (mul32 (fnvMix acc w) fnvPrimeInverse) w = acc := by
  rw [fnvMix, mul32_fnvPrime_inverse, xor32_xor32_self]

/-- Settles O29: distinct accumulators stay distinct because the step can be undone. -/
theorem fnvMultiplyStageFacts : Obligations.FnvMultiplyStageFacts := by
  have hinv (s t : State) (b : Byte) (h : exec (.fnvByte b) s = .next t) :
      s.fnvAcc = xor32 (mul32 t.fnvAcc fnvPrimeInverse) (zext32 b) := by
    cases h
    exact (fnvMix_inverse ..).symm
  refine ⟨rfl, mul32_fnvPrime_eq_shifts, mul32_fnvPrime_bijective, fun b => xor32_bijective _, hinv,
    fun s s' t t' b h h' hne heq => hne ?_⟩
  rw [hinv s t b h, hinv s' t' b h', heq]

/-! ### Streaming bytes (R125, R126) -/

theorem fnvFrom_append (acc : Word) (bs cs : Key) : fnvFrom acc (bs ++ cs) = fnvFrom (fnvFrom acc bs) cs := by
  induction bs generalizing acc with
  | nil => rfl
  | cons b bs ih => exact ih _

/-- One FNV_BYTE per byte runs the accumulator over the bytes, and changes nothing else once ERR is 0. -/
theorem execAll_fnvByte {s : State} (bs : Key) (herr : s.err = 0) :
    execAll (bs.map .fnvByte) s = .next { s with fnvAcc := fnvFrom s.fnvAcc bs } := by
  induction bs generalizing s with
  | nil => rfl
  | cons b bs ih =>
    rw [List.map_cons, execAll_cons_next (exec_fnvByte s b), ih rfl, ← herr]
    rfl

theorem execAll_streamed_fnv (s : State) (bs : Key) :
    execAll (.fnvInit :: (bs.map .fnvByte ++ [.fnvFinal])) s =
      .next { s with fnvAcc := fnv1aRaw bs, digest := fnv1a bs, err := 0 } := by
  rw [execAll_cons_next (exec_fnvInit s), execAll_append_next (execAll_fnvByte bs rfl),
    execAll_cons_next (exec_fnvFinal _)]
  rfl

theorem resetBlock_fnvAcc (s : State) : (resetBlock s).fnvAcc = fnv1aRaw [] := rfl

/-- Settles O30: right after FNV_INIT, as after reset, the accumulator is that of the empty key. -/
theorem fnvFinalGivesTheAbsoluteValue : Obligations.FnvFinalGivesTheAbsoluteValue := by
  have hempty : fnv1a [] = 0x7EE3623B := by decide
  have hreset (s : State) : abs32 (resetBlock s).fnvAcc = 0x7EE3623B :=
    (congrArg abs32 (resetBlock_fnvAcc s)).trans hempty
  refine ⟨decode_encode .fnvFinal, exec_fnvFinal, fun s t h => ?_, fun s t hacc h => ?_,
    fun s => ⟨_, _, execAll_streamed_fnv s [], hempty, exec_fnvFinal (resetBlock s), hreset s⟩⟩
  · cases h
    rfl
  · cases h
    have hedge : abs32 s.fnvAcc = 0x80000000#32 := by rw [hacc]; decide
    exact ⟨hedge, decide_eq_true hedge⟩

/-- Settles O31. -/
theorem fnvKeyHashesTheKey : Obligations.FnvKeyHashesTheKey :=
  ⟨decode_encode .fnvKey, fun s k hk =>
    ⟨exec_fnvKey hk, (execAll_streamed_fnv s k).trans (exec_fnvKey hk).symm⟩⟩

end Sys2Proof.Machine
end

section
/-! PROOFS. Streamed hashes with other transactions between the bytes (41_fnv1a.md R126, 70_reset_and_hazards.md R244):
the induction along the run, once for any core, and the FNV core as one use of it. -/

namespace Sys2Proof.Machine

/-! ### Runs that stream bytes into a core -/

theorem perform_lineCmd (i : Instr) (s : State) : perform (lineCmd i) s = exec i s :=
  perform_write_command s (decode_encode i)

theorem performAll_append_next {xs ys : List Txn} {s t : State} (h : performAll xs s = .next t) :
    performAll (xs ++ ys) s = performAll ys t := by
  induction xs generalizing s with
  | nil => cases h; rfl
  | cons x xs ih =>
    rw [performAll] at h
    split at h
    · rw [List.cons_append, performAll_cons_next ‹_›, ih h]
    · cases h
    · cases h

/-- In a state of the invariant the port answers every transaction it has (R66, R211). -/
theorem Inv.perform_answers {s : State} (hs : Inv s) {x : Txn} (hx : x.wf = true) : Answers (perform x s) := by
  cases x with
  | write off v => rw [perform, if_pos (show portOffset off = true from hx)]; exact hs.hostWrite_answers off v
  | read off => rw [perform, if_pos (show portOffset off = true from hx)]; exact answers_next _
  | reset => exact answers_next _

/-- A run that streams splits at its first transaction: the bytes that one gives, and those of the rest. -/
theorem streamed_cons_some {bytes : State → Instr → Option Key} {x : Txn} {xs : List Txn} {s t : State} {bs : Key}
    (h : perform x s = .next t) (hb : streamed bytes (x :: xs) s = some bs) :
    ∃ cs ds, txnBytes bytes x s = some cs ∧ streamed bytes xs t = some ds ∧ bs = cs ++ ds := by
  cases hc : txnBytes bytes x s with
  | none => simp [streamed, hc] at hb
  | some cs =>
    rw [streamed_cons_next hc h, Option.map_eq_some_iff] at hb
    obtain ⟨ds, hds, rfl⟩ := hb
    exact ⟨cs, ds, rfl, hds, rfl⟩

/-- `P s bs`, "in `s` the core stands where streaming `bs` leaves it", goes on through a command when the bytes the
command gives are appended, and through what a transaction does besides: ARG, a value read, an illegal word. -/
structure CarriesOn (bytes : State → Instr → Option Key) (P : State → Key → Prop) : Prop where
  exec {i : Instr} {s t : State} {bs cs : Key} (hs : Inv s) (hP : P s bs) (hc : bytes s i = some cs)
    (h : exec i s = .next t) : P t (bs ++ cs)
  host {s : State} {bs : Key} (v : Word) (r : List Word) (hP : P s bs) : P { s with arg := v, returned := r } bs
  illegal {s : State} {bs : Key} (hP : P s bs) : P (raise .eill s) bs

section
variable {bytes : State → Instr → Option Key} {P : State → Key → Prop} {s : State} {bs cs : Key}

theorem CarriesOn.perform (hP : CarriesOn bytes P) {x : Txn} {t : State} (hs : Inv s) (h : P s bs)
    (hc : txnBytes bytes x s = some cs) (hx : perform x s = .next t) : P t (bs ++ cs) := by
  obtain ⟨w, rfl, hx⟩ | ⟨v, rfl, rfl⟩ | ⟨off, v, rfl, hcmd, -, rfl⟩ | ⟨off, rfl, rfl⟩ | ⟨rfl, -⟩ := perform_next hx
  · obtain ⟨i, hdec, hx⟩ | ⟨e, hdec, rfl⟩ := execute_next hx
    · simp only [txnBytes, hdec, if_pos] at hc
      exact hP.exec hs h hc hx
    · obtain rfl : cs = [] := by simpa [txnBytes, hdec] using hc.symm
      rw [List.append_nil]
      exact hP.illegal h
  · cases hc
    rw [List.append_nil]
    exact hP.host v s.returned h
  · obtain rfl : cs = [] := by simpa [txnBytes, hcmd] using hc.symm
    rwa [List.append_nil]
  · cases hc
    rw [List.append_nil]
    exact hP.host s.arg _ h
  · cases hc

/-- A run of transactions of the port that streams `cs` completes, and the core ends where `cs` leaves it. -/
theorem CarriesOn.performAll (hP : CarriesOn bytes P) {ts : List Txn} (hs : Inv s) (h : P s bs)
    (hwf : ∀ x ∈ ts, x.wf = true) (hc : streamed bytes ts s = some cs) :
    ∃ t, performAll ts s = .next t ∧ P t (bs ++ cs) := by
  induction ts generalizing s bs cs with
  | nil =>
    cases hc
    exact ⟨s, rfl, by rwa [List.append_nil]⟩
  | cons x xs ih =>
    obtain ⟨hx, hxs⟩ := List.forall_mem_cons.1 hwf
    obtain ⟨u, hu⟩ := hs.perform_answers hx
    obtain ⟨cs, ds, hcs, hds, rfl⟩ := streamed_cons_some hu hc
    obtain ⟨t, ht, hPt⟩ := ih (perform_keeps_inv hs hu) (hP.perform hs h hcs hu) hxs hds
    exact ⟨t, (performAll_cons_next hu).trans ht, by rwa [← List.append_assoc]⟩

end

/-! ### The FNV core (R126, R46) -/

/-- Without a table a command that hashes the key fails before it hashes (R182). -/
theorem exec_hashesTheKey_without_table {i : Instr} {s : State} (hi : hashesTheKey i = true)
    (hv : s.tvalid = false) : exec i s = .next (raise .enotbl s) :=
  match i, hi with
  | .tblAdd, _ | .tblContains, _ | .tblRemove, _ => withTable_none hv _

/-- A table command that does not use the FNV core leaves its accumulator: there is no table, or HSEL selects the other
core. -/
theorem fnvAcc_of_hashesTheKey {i : Instr} {s t : State} (hi : hashesTheKey i = true)
    (hu : tableUses .fnv s = false) (h : exec i s = .next t) : t.fnvAcc = s.fnvAcc := by
  cases hv : s.tvalid with
  | false =>
    rw [exec_hashesTheKey_without_table hi hv] at h
    cases h
    rfl
  | true =>
    have hmur : s.hsel = .mur := by
      cases hsel : s.hsel with
      | fnv => simp [tableUses, hv, hsel] at hu
      | mur => rfl
    have hne {j : Instr} (hj : hashesTheKey j = false) : i ≠ j := by
      rintro rfl
      rw [hi] at hj
      cases hj
    obtain ⟨-, -, -, -, -, -, -, -, hacc, -⟩ := commandsWriteOnlyTheirState i s t h
    exact hacc (hne rfl) (hne rfl) (fun _ => hne rfl) fun _ => hmur

/-- A command runs the accumulator over the bytes it gives to a streamed hash. -/
theorem fnvAcc_of_fnvBytes {i : Instr} {s t : State} {cs : Key} (hc : fnvBytes s i = some cs)
    (h : exec i s = .next t) : t.fnvAcc = fnvFrom s.fnvAcc cs := by
  cases i with
  | fnvByte b =>
    cases hc
    cases h
    rfl
  | fnvInit | fnvKey => cases hc
  | tblAdd | tblContains | tblRemove =>
    rw [fnvBytes] at hc
    split at hc
    · cases hc
    · cases hc
      exact fnvAcc_of_hashesTheKey rfl (Bool.eq_false_of_not_eq_true ‹_›) h
  | nop | clrErr | keyClr | keyPush | keyPushw | fnvFinal | murInit | murByte | murBlock | murFinal | murKey | tblInit
  | tblDiscard | tblDist | tblColl | tblSize =>
    cases hc
    obtain ⟨-, -, -, -, -, -, -, -, hacc, -⟩ := commandsWriteOnlyTheirState _ s t h
    exact hacc nofun nofun nofun nofun

theorem carriesOn_fnv : CarriesOn fnvBytes fun s bs => s.fnvAcc = fnv1aRaw bs where
  exec _ hacc hc h := by rw [fnvAcc_of_fnvBytes hc h, hacc, fnv1aRaw, fnv1aRaw, fnvFrom_append]
  host _ _ := id
  illegal := id

/-- Settles O32: FNV_INIT begins the induction along the run, and FNV_FINAL reads where it ends. -/
theorem streamedFnvSurvivesOtherCommands : Obligations.StreamedFnvSurvivesOtherCommands := by
  intro ts s bs hs hwf hbs
  have hinit := (perform_lineCmd .fnvInit s).trans (exec_fnvInit s)
  obtain ⟨u, hu, hacc⟩ := carriesOn_fnv.performAll (bs := []) (perform_keeps_inv hs hinit) rfl hwf hbs
  have hfinal := (perform_lineCmd .fnvFinal u).trans (exec_fnvFinal u)
  have hrest := (performAll_append_next hu).trans (performAll_cons_next (xs := []) hfinal)
  exact ⟨_, (performAll_cons_next hinit).trans hrest, hacc, congrArg abs32 hacc⟩

end Sys2Proof.Machine
end

section
/-! PROOFS. The sign of a digest (41_fnv1a.md R127, 42_murmur.md R154, 00_scope.md R12), for both hashers at once: each
digest is the `abs32` of its raw value. -/

namespace Sys2Proof.Machine

theorem toInt_abs32_nonneg {x : Word} (h : x ≠ 0x80000000#32) : 0 ≤ (abs32 x).toInt := by
  have hmsb : (abs32 x).msb = false := by
    rw [← getLsbD_31_eq_msb, Bool.eq_false_iff, ne_eq, getLsbD_31_abs32_iff]
    exact h
  rw [BitVec.toInt_eq_toNat_of_msb hmsb]
  exact Int.natCast_nonneg _

theorem toInt_abs32_edge {x : Word} (h : x = 0x80000000#32) : (abs32 x).toInt = -2 ^ 31 := by
  rw [h]
  decide

/-- Settles O33: the keys of the edge case are vectors F9 and M13. -/
theorem digestIsNonNegativeButForTheEdgeCase : Obligations.DigestIsNonNegativeButForTheEdgeCase :=
  ⟨fun _ => ⟨toInt_abs32_nonneg, toInt_abs32_edge⟩, fun _ => ⟨toInt_abs32_nonneg, toInt_abs32_edge⟩,
    by decide, by decide⟩

end Sys2Proof.Machine
end

section
/-! PROOFS. The arithmetic of the Murmur Hasher (42_murmur.md R142, R144, R146): each step is undone by another, so every
stage is a bijection. -/

namespace Sys2Proof.Machine

/-! ### The steps -/

theorem mul32_bijective {p q : Word} (h : mul32 p q = 1) : Function.Bijective fun t => mul32 t p :=
  Function.bijective_iff_has_inverse.2
    ⟨fun t => mul32 t q, mul32_mul32_of_inverse h, mul32_mul32_of_inverse ((BitVec.mul_comm q p).trans h)⟩

/-- The two parts of a rotation fill the bits on the two sides of the cut. -/
theorem getLsbD_rotl32 (a : Word) {r i : Nat} (hi : i < 32) :
    (rotl32 a r).getLsbD i = a.getLsbD (if i < r then 32 - r + i else i - r) := by
  simp only [rotl32, or32, shl32, lsr32, BitVec.getLsbD_or, BitVec.getLsbD_shiftLeft, BitVec.getLsbD_ushiftRight]
  by_cases h : i < r
  · simp [h]
  · simp [h, hi, BitVec.getLsbD_of_ge a (32 - r + i) (by omega)]

/-- Rotating on by the rest of the word comes back to the start. -/
theorem rotl32_rotl32 (a : Word) {r : Nat} (hr : r ≤ 32) : rotl32 (rotl32 a r) (32 - r) = a := by
  refine BitVec.eq_of_getLsbD_eq fun i hi => ?_
  rw [getLsbD_rotl32 _ hi, getLsbD_rotl32 _ (by split <;> omega)]
  congr 1
  split <;> split <;> omega

theorem rotl32_bijective {r : Nat} (hr : r ≤ 32) : Function.Bijective fun a => rotl32 a r :=
  Function.bijective_iff_has_inverse.2 ⟨fun a => rotl32 a (32 - r), fun a => rotl32_rotl32 a hr, fun a => by
    have h := rotl32_rotl32 a (Nat.sub_le 32 r)
    rwa [Nat.sub_sub_self hr] at h⟩

theorem add32_bijective (n : Word) : Function.Bijective fun a => add32 a n := (Equiv.addRight n).bijective

/-- Two equal xor-shifts are one by twice as much: the middle terms cancel. -/
theorem xorShift_xorShift (h : Word) (r : Nat) : xorShift (xorShift h r) r = xorShift h (r + r) := by
  ext i hi
  simp [xorShift, xor32, lsr32, Nat.add_assoc]

theorem xorShift_bijective_of_le {r : Nat} (hr : 32 ≤ r) : Function.Bijective fun h => xorShift h r := by
  have hid (h : Word) : xorShift h r = h := by
    rw [xorShift, lsr32_eq_zero_iff.2 (h.isLt.trans_le (Nat.pow_le_pow_right (by decide) hr))]
    exact BitVec.xor_zero
  rw [show (fun h => xorShift h r) = id from funext hid]
  exact Function.bijective_id

theorem xorShift_bijective_of_double {r : Nat} (h : Function.Bijective fun h => xorShift h (r + r)) :
    Function.Bijective fun h => xorShift h r := by
  have hcomp : (fun h => xorShift h (r + r)) = (fun h => xorShift h r) ∘ fun h => xorShift h r :=
    funext fun h => (xorShift_xorShift h r).symm
  rw [hcomp] at h
  exact ⟨h.1.of_comp, h.2.of_comp⟩

/-! ### The stages (R142, R144, R146)

Each multiplier of R7 is odd; the word given as `q` is its inverse modulo 2^32. -/

theorem mixk_bijective : Function.Bijective mixk :=
  (mul32_bijective (q := 0x56ED309B) (by decide)).comp
    ((rotl32_bijective (by decide)).comp (mul32_bijective (q := 0xDEE13BB1) (by decide)))

theorem murFold_bijective (k : Word) : Function.Bijective fun h => murFold h k :=
  (add32_bijective murN).comp <| (mul32_bijective (q := 0xCCCCCCCD) (by decide)).comp <|
    (rotl32_bijective (by decide)).comp (xor32_bijective (mixk k))

theorem fmix32_bijective : Function.Bijective fmix32 := by
  have h16 : Function.Bijective fun h => xorShift h 16 :=
    xorShift_bijective_of_double (xorShift_bijective_of_le (by decide))
  have h13 : Function.Bijective fun h => xorShift h 13 :=
    xorShift_bijective_of_double (xorShift_bijective_of_double (xorShift_bijective_of_le (by decide)))
  exact h16.comp <| (mul32_bijective (q := 0x7ED1B41D) (by decide)).comp <| h13.comp <|
    (mul32_bijective (q := 0xA5CB9243) (by decide)).comp h16

/-- Settles O34. -/
theorem murmurStagesAreBijections : Obligations.MurmurStagesAreBijections :=
  ⟨mixk_bijective, murFold_bijective, fmix32_bijective, mixk_zero, by decide⟩

end Sys2Proof.Machine
end

section
/-! PROOFS. The Murmur Hasher (42_murmur.md R141 to R153): its commands, the function of R153 when bytes are added to a
key, and the whole-key command as the stream of its bytes. -/

namespace Sys2Proof.Machine

/-! ### The commands (R141, R143, R148, R151, R152) -/

section
variable {s : State}

theorem exec_murInit (s : State) :
    exec .murInit s = .next { s with murH := 0x00000100, murTail := 0, murLen := 0, err := 0 } := rfl

theorem exec_murByte_part (b : Byte) (hlen : s.murLen ≠ 0xFFFFFFFF#32) (hr : s.murLen.toNat % 4 ≠ 3) :
    exec (.murByte b) s = .next { s with murTail := murTailWith s b, murLen := s.murLen + 1, err := 0 } :=
  (if_neg hlen).trans (if_neg hr)

theorem exec_murByte_full (b : Byte) (hlen : s.murLen ≠ 0xFFFFFFFF#32) (hr : s.murLen.toNat % 4 = 3) :
    exec (.murByte b) s = .next { s with
      murH := murFold s.murH (murTailWith s b), murTail := 0, murLen := s.murLen + 1, err := 0 } :=
  (if_neg hlen).trans (if_pos hr)

theorem exec_murByte_past_end (b : Byte) (hlen : s.murLen = 0xFFFFFFFF#32) :
    exec (.murByte b) s = .next (raise .elen s) :=
  if_pos hlen

theorem exec_murBlock_on_boundary (hr : s.murLen.toNat % 4 = 0) (hlen : s.murLen.toNat ≤ 0xFFFFFFFB) :
    exec .murBlock s = .next { s with murH := murFold s.murH s.arg, murLen := s.murLen + 4, err := 0 } :=
  (if_neg (not_not.2 hr)).trans (if_neg (not_lt.2 hlen))

theorem exec_murBlock_off_boundary (hr : s.murLen.toNat % 4 ≠ 0) : exec .murBlock s = .next (raise .eseq s) :=
  if_pos hr

theorem exec_murBlock_past_end (hr : s.murLen.toNat % 4 = 0) (hlen : s.murLen.toNat > 0xFFFFFFFB) :
    exec .murBlock s = .next (raise .elen s) :=
  (if_neg (not_not.2 hr)).trans (if_pos hlen)

theorem exec_murFinal (s : State) :
    exec .murFinal s = .next { s with digest := abs32 (murRawOf s.murH s.murTail s.murLen), err := 0 } := rfl

theorem ofNat_length_of_currentKey {k : Key} (hk : currentKey s = some k) : BitVec.ofNat 32 k.length = s.keylen := by
  rw [currentKey_length hk, BitVec.ofNat_toNat, BitVec.setWidth_eq]

theorem exec_murKey {k : Key} (hk : currentKey s = some k) :
    exec .murKey s = .next { s with
      murH := murHashOf k, murTail := murTailOf k, murLen := s.keylen, digest := murmur k, err := 0 } := by
  show execMurKey s = _
  rw [execMurKey, murKeyWrites_of_currentKey hk, ofNat_length_of_currentKey hk]
  rfl

/-- A partial block of no byte has the tail 0 (R35). -/
theorem murTail_eq_zero_of_murInv (h : MurInv s) (hr : s.murLen.toNat % 4 = 0) : s.murTail = 0 := by
  rwa [MurInv, hr] at h

end

/-- Settles O35. -/
theorem murInitSetsTheSeed : Obligations.MurInitSetsTheSeed :=
  ⟨decode_encode .murInit, exec_murInit, rfl⟩

/-- Settles O36. -/
theorem murByteAddsItsByte : Obligations.MurByteAddsItsByte := by
  refine ⟨fun b => decode_encode (.murByte b), fun s b => exec_murByte_part b, fun s b hlen hr => ?_,
    fun s => exec_murByte_past_end⟩
  have htail : murTailWith s b = s.murTail ||| b.setWidth 32 <<< 24 := by rw [murTailWith, hr]; rfl
  rw [exec_murByte_full b hlen hr, htail]

/-! ### Adding bytes to a key (R153) -/

/-- The bytes after the last full block, whose little-endian word is the tail of R153. -/
def pendingBytes (bs : Key) : Key := bs.drop (4 * (bs.length / 4))

theorem murTailOf_eq_leWord (bs : Key) : murTailOf bs = leWord (pendingBytes bs) := rfl

theorem length_pendingBytes (bs : Key) : (pendingBytes bs).length = bs.length % 4 := by
  rw [pendingBytes, List.length_drop]
  omega

theorem pendingBytes_of_boundary {bs : Key} (h : bs.length % 4 = 0) : pendingBytes bs = [] :=
  List.eq_nil_of_length_eq_zero ((length_pendingBytes bs).trans h)

section
variable {bs cs : Key}

/-- The hash over full blocks does not see bytes added after them. -/
theorem murHashAt_append {b : Nat} (hb : 4 * b ≤ bs.length) : murHashAt (bs ++ cs) b = murHashAt bs b := by
  induction b with
  | zero => rfl
  | succ b ih =>
    have hblock : blockAt (bs ++ cs) b = blockAt bs b := by
      rw [blockAt, blockAt, List.drop_append_of_le_length (by omega),
        List.take_append_of_le_length (by rw [List.length_drop]; omega)]
    rw [murHashAt, murHashAt, ih (by omega), hblock]

theorem drop_blocks_append : (bs ++ cs).drop (4 * (bs.length / 4)) = pendingBytes bs ++ cs :=
  List.drop_append_of_le_length (by omega)

theorem murHashOf_append_part (h : (bs.length + cs.length) / 4 = bs.length / 4) :
    murHashOf (bs ++ cs) = murHashOf bs := by
  rw [murHashOf, List.length_append, h, murHashAt_append (by omega), murHashOf]

theorem murTailOf_append_part (h : (bs.length + cs.length) / 4 = bs.length / 4) :
    murTailOf (bs ++ cs) = leWord (pendingBytes bs ++ cs) := by
  rw [murTailOf, List.length_append, h, drop_blocks_append]

/-- Bytes that complete the pending block fold it. -/
theorem murHashOf_append_full (h : bs.length % 4 + cs.length = 4) :
    murHashOf (bs ++ cs) = murFold (murHashOf bs) (leWord (pendingBytes bs ++ cs)) := by
  have hblock : blockAt (bs ++ cs) (bs.length / 4) = leWord (pendingBytes bs ++ cs) := by
    rw [blockAt, drop_blocks_append,
      List.take_of_length_le (by rw [List.length_append, length_pendingBytes, h])]
  rw [murHashOf, List.length_append, show (bs.length + cs.length) / 4 = bs.length / 4 + 1 by omega, murHashAt,
    murHashAt_append (by omega), hblock, murHashOf]

theorem murTailOf_of_boundary (h : bs.length % 4 = 0) : murTailOf bs = 0 := by
  rw [murTailOf_eq_leWord, pendingBytes_of_boundary h, leWord]

theorem murTailOf_append_full (h : bs.length % 4 + cs.length = 4) : murTailOf (bs ++ cs) = 0 :=
  murTailOf_of_boundary (by rw [List.length_append]; omega)

end

/-! ### Bytes of one block (R143, R148) -/

section
variable {s : State} {xs : Key}

/-- The tail with one more byte is the word of the pending bytes with that byte after them. -/
theorem murTailWith_eq_leWord (b : Byte) (htail : s.murTail = leWord xs) (hr : s.murLen.toNat % 4 = xs.length) :
    murTailWith s b = leWord (xs ++ [b]) := by
  rw [murTailWith, htail, hr, leWord_snoc, immOperand]

theorem exec_murByte_pending (b : Byte) (htail : s.murTail = leWord xs) (hr : s.murLen.toNat % 4 = xs.length)
    (hpart : xs.length ≠ 3) :
    exec (.murByte b) s = .next { s with murTail := leWord (xs ++ [b]), murLen := s.murLen + 1, err := 0 } := by
  have hmax : s.murLen ≠ 0xFFFFFFFF#32 := fun he => hpart (by rw [← hr, he]; rfl)
  rw [exec_murByte_part b hmax (hr ▸ hpart), murTailWith_eq_leWord b htail hr]

theorem exec_murByte_completing (b : Byte) (htail : s.murTail = leWord xs) (hr : s.murLen.toNat % 4 = xs.length)
    (hfull : xs.length = 3) (hmax : s.murLen ≠ 0xFFFFFFFF#32) :
    exec (.murByte b) s = .next { s with
      murH := murFold s.murH (leWord (xs ++ [b])), murTail := 0, murLen := s.murLen + 1, err := 0 } := by
  rw [exec_murByte_full b hmax (hr.trans hfull), murTailWith_eq_leWord b htail hr]

end

theorem leWord_byteOf (v : Word) : leWord [byteOf v 0, byteOf v 1, byteOf v 2, byteOf v 3] = v := by
  have h := leWord_map_byteOf v 4
  rwa [BitVec.setWidth_eq, BitVec.setWidth_eq] at h

/-- A state on a block boundary, with the bytes `xs` of the next block received. -/
def withPending (xs : Key) (s : State) : State :=
  { s with murTail := leWord xs, murLen := s.murLen + BitVec.ofNat 32 xs.length, err := 0 }

section
variable {s : State} {xs : Key}

/-- The place in the block is the number of bytes received, also where the length wraps. -/
theorem withPending_murLen_mod (hr : s.murLen.toNat % 4 = 0) (hx : xs.length < 4) :
    (withPending xs s).murLen.toNat % 4 = xs.length := by
  rw [withPending, BitVec.toNat_add, BitVec.toNat_ofNat]
  omega

theorem withPending_murLen_add_one (xs : Key) (b : Byte) (s : State) :
    (withPending xs s).murLen + 1 = s.murLen + BitVec.ofNat 32 (xs ++ [b]).length := by
  rw [List.length_append, BitVec.ofNat_add, ← BitVec.add_assoc]
  rfl

theorem exec_murByte_withPending (b : Byte) (hr : s.murLen.toNat % 4 = 0) (hx : xs.length < 3) :
    exec (.murByte b) (withPending xs s) = .next (withPending (xs ++ [b]) s) := by
  rw [exec_murByte_pending b rfl (withPending_murLen_mod hr (by omega)) (by omega), withPending_murLen_add_one xs b]
  rfl

end

/-- Four MUR_BYTE on a block boundary fold the word of their bytes. -/
theorem execAll_four_murByte {s : State} (b0 b1 b2 b3 : Byte) (htail : s.murTail = 0) (hr : s.murLen.toNat % 4 = 0)
    (hlen : s.murLen.toNat ≤ 0xFFFFFFFB) :
    execAll [.murByte b0, .murByte b1, .murByte b2, .murByte b3] s = .next { s with
      murH := murFold s.murH (leWord [b0, b1, b2, b3]), murTail := 0, murLen := s.murLen + 4, err := 0 } := by
  have h0 : exec (.murByte b0) s = .next (withPending [b0] s) :=
    exec_murByte_pending (xs := []) b0 htail hr (by simp)
  have h1 : exec (.murByte b1) (withPending [b0] s) = .next (withPending [b0, b1] s) :=
    exec_murByte_withPending b1 hr (by simp)
  have h2 : exec (.murByte b2) (withPending [b0, b1] s) = .next (withPending [b0, b1, b2] s) :=
    exec_murByte_withPending b2 hr (by simp)
  have hmax : s.murLen + BitVec.ofNat 32 3 ≠ 0xFFFFFFFF#32 := by bv_omega
  have h3 := exec_murByte_completing b3 (s := withPending [b0, b1, b2] s) rfl
    (withPending_murLen_mod hr (by simp)) rfl hmax
  rw [execAll_cons_next h0, execAll_cons_next h1, execAll_cons_next h2, execAll_cons_next h3,
    withPending_murLen_add_one _ b3]
  rfl

/-- Settles O37. -/
theorem murBlockFoldsOneBlock : Obligations.MurBlockFoldsOneBlock := by
  refine ⟨decode_encode .murBlock, fun s => exec_murBlock_on_boundary, fun s hs hr hlen => ?_,
    fun s => exec_murBlock_off_boundary, fun s => exec_murBlock_past_end⟩
  have htail : s.murTail = 0 := murTail_eq_zero_of_murInv hs hr
  have hword : leWord [s.arg.extractLsb' 0 8, s.arg.extractLsb' 8 8, s.arg.extractLsb' 16 8, s.arg.extractLsb' 24 8] =
      s.arg := leWord_byteOf s.arg
  rw [execAll_four_murByte _ _ _ _ htail hr hlen, exec_murBlock_on_boundary hr hlen, hword, ← htail]
  exact ⟨rfl, rfl⟩

/-! ### The core after a key's bytes (R153) -/

/-- The Murmur registers stand where streaming `bs` leaves them. -/
structure HoldsMurmur (bs : Key) (s : State) : Prop where
  murH : s.murH = murHashOf bs
  murTail : s.murTail = murTailOf bs
  murLen : s.murLen = BitVec.ofNat 32 bs.length

/-- The state with the Murmur registers there. -/
def withMurmur (bs : Key) (s : State) : State :=
  { s with murH := murHashOf bs, murTail := murTailOf bs, murLen := BitVec.ofNat 32 bs.length, err := 0 }

theorem holdsMurmur_withMurmur (bs : Key) (s : State) : HoldsMurmur bs (withMurmur bs s) := ⟨rfl, rfl, rfl⟩

theorem withMurmur_withMurmur (bs cs : Key) (s : State) : withMurmur cs (withMurmur bs s) = withMurmur cs s := rfl

theorem exec_murInit_eq_withMurmur (s : State) : exec .murInit s = .next (withMurmur [] s) := rfl

theorem holdsMurmur_resetBlock (s : State) : HoldsMurmur [] (resetBlock s) := ⟨rfl, rfl, rfl⟩

section
variable {bs : Key} {s : State}

theorem HoldsMurmur.toNat_murLen (h : HoldsMurmur bs s) (hlen : bs.length ≤ 2 ^ 32 - 1) :
    s.murLen.toNat = bs.length := by
  rw [h.murLen, BitVec.toNat_ofNat, Nat.mod_eq_of_lt (by omega)]

theorem HoldsMurmur.murRawOf_eq (h : HoldsMurmur bs s) (hlen : bs.length ≤ 2 ^ 32 - 1) :
    murRawOf s.murH s.murTail s.murLen = murmurRaw bs := by
  have htail (h0 : s.murLen.toNat % 4 = 0) : s.murTail = 0 := by
    rw [h.toNat_murLen hlen] at h0
    rw [h.murTail, murTailOf_of_boundary h0]
  rw [murRawOf_of_tail_zero _ _ _ htail, h.murH, h.murTail, h.murLen, murmurRaw]

theorem HoldsMurmur.exec_murFinal (h : HoldsMurmur bs s) (hlen : bs.length ≤ 2 ^ 32 - 1) :
    exec .murFinal s = .next { s with digest := murmur bs, err := 0 } := by
  rw [Machine.exec_murFinal, h.murRawOf_eq hlen, murmur]

theorem HoldsMurmur.murLen_add (h : HoldsMurmur bs s) (cs : Key) :
    s.murLen + BitVec.ofNat 32 cs.length = BitVec.ofNat 32 (bs ++ cs).length := by
  rw [h.murLen, List.length_append, BitVec.ofNat_add]

theorem HoldsMurmur.exec_murByte (h : HoldsMurmur bs s) (b : Byte) (hlen : bs.length + 1 ≤ 2 ^ 32 - 1) :
    exec (.murByte b) s = .next (withMurmur (bs ++ [b]) s) := by
  have hn : s.murLen.toNat = bs.length := h.toNat_murLen (by omega)
  have hr : s.murLen.toNat % 4 = (pendingBytes bs).length := by rw [hn, length_pendingBytes]
  have htail : s.murTail = leWord (pendingBytes bs) := h.murTail
  have hcount : s.murLen + 1 = BitVec.ofNat 32 (bs ++ [b]).length := h.murLen_add [b]
  by_cases hfull : bs.length % 4 = 3
  · have hmax : s.murLen ≠ 0xFFFFFFFF#32 := by
      intro he
      rw [he, show (0xFFFFFFFF#32).toNat = 2 ^ 32 - 1 from rfl] at hn
      omega
    have hfold : bs.length % 4 + [b].length = 4 := by rw [hfull, List.length_singleton]
    have hzero : murTailOf (bs ++ [b]) = 0 := murTailOf_append_full hfold
    rw [exec_murByte_completing b htail hr ((length_pendingBytes bs).trans hfull) hmax, hcount, h.murH,
      ← murHashOf_append_full hfold, ← hzero, withMurmur]
  · have hpart : (bs.length + [b].length) / 4 = bs.length / 4 := by rw [List.length_singleton]; omega
    rw [exec_murByte_pending b htail hr (by rwa [length_pendingBytes]), hcount, ← murTailOf_append_part hpart,
      withMurmur, murHashOf_append_part hpart, ← h.murH]

theorem HoldsMurmur.exec_murBlock (h : HoldsMurmur bs s) {cs : Key} (hcs : cs.length = 4) (harg : leWord cs = s.arg)
    (hr : bs.length % 4 = 0) (hlen : bs.length + 4 ≤ 2 ^ 32 - 1) :
    exec .murBlock s = .next (withMurmur (bs ++ cs) s) := by
  have hn : s.murLen.toNat = bs.length := h.toNat_murLen (by omega)
  have hcount : s.murLen + 4 = BitVec.ofNat 32 (bs ++ cs).length := by
    have hadd := h.murLen_add cs
    rwa [hcs] at hadd
  have hfold : bs.length % 4 + cs.length = 4 := by omega
  have hword : murHashOf (bs ++ cs) = murFold s.murH s.arg := by
    rw [murHashOf_append_full hfold, pendingBytes_of_boundary hr, List.nil_append, harg, h.murH]
  have hzero : s.murTail = murTailOf (bs ++ cs) := by
    rw [h.murTail, murTailOf_of_boundary hr, murTailOf_append_full hfold]
  rw [exec_murBlock_on_boundary (hn ▸ hr) (by omega), withMurmur, hcount, hword, ← hzero]

end

/-! ### Streaming bytes (R152, R153) -/

/-- One MUR_BYTE per byte runs the core on, and changes nothing but the Murmur registers. -/
theorem execAll_murByte (bs cs : Key) (s : State) (hlen : (bs ++ cs).length ≤ 2 ^ 32 - 1) :
    execAll (cs.map .murByte) (withMurmur bs s) = .next (withMurmur (bs ++ cs) s) := by
  induction cs generalizing bs with
  | nil => rw [List.append_nil, List.map_nil, execAll]
  | cons c cs ih =>
    have hsplit : bs ++ c :: cs = bs ++ [c] ++ cs := List.append_cons ..
    rw [hsplit] at hlen ⊢
    have hroom : bs.length + 1 ≤ 2 ^ 32 - 1 := by
      rw [List.length_append, List.length_append, List.length_singleton] at hlen
      omega
    rw [List.map_cons, execAll_cons_next ((holdsMurmur_withMurmur bs s).exec_murByte c hroom),
      withMurmur_withMurmur, ih _ hlen]

theorem execAll_streamed_murmur (s : State) (bs : Key) (hlen : bs.length ≤ 2 ^ 32 - 1) :
    execAll (.murInit :: (bs.map .murByte ++ [.murFinal])) s = .next { s with
      murH := murHashOf bs, murTail := murTailOf bs, murLen := BitVec.ofNat 32 bs.length, digest := murmur bs
      err := 0 } := by
  rw [execAll_cons_next (exec_murInit_eq_withMurmur s), execAll_append_next (execAll_murByte [] bs s hlen),
    List.nil_append, execAll_cons_next ((holdsMurmur_withMurmur bs s).exec_murFinal hlen)]
  rfl

/-- Settles O38: with no byte pending the tail is 0, so that mixing it in or not is the same. -/
theorem murFinalGivesTheDigest : Obligations.MurFinalGivesTheDigest := by
  have hempty : murmur [] = 0x4570315F := by decide
  refine ⟨decode_encode .murFinal, exec_murFinal, fun s t h => ?_, fun s t hs h => ?_, fun s t hedge h => ?_,
    fun s => ⟨_, _, execAll_streamed_murmur s [] (by decide), hempty,
      (holdsMurmur_resetBlock s).exec_murFinal (by decide), hempty⟩⟩
  · cases h
    rfl
  · cases h
    exact congrArg abs32 (murRawOf_of_tail_zero _ _ _ (murTail_eq_zero_of_murInv hs))
  · cases h
    have habs : abs32 (murRawOf s.murH s.murTail s.murLen) = 0x80000000#32 := by rw [hedge]; decide
    exact ⟨habs, decide_eq_true habs⟩

/-- Settles O39: KEYLEN is the key's length, which therefore fits the count. -/
theorem murKeyHashesTheKey : Obligations.MurKeyHashesTheKey := by
  refine ⟨decode_encode .murKey, fun s k hk => ⟨exec_murKey hk, ?_⟩⟩
  have hlen : k.length ≤ 2 ^ 32 - 1 := currentKey_length hk ▸ Nat.le_pred_of_lt s.keylen.isLt
  rw [execAll_streamed_murmur s k hlen, exec_murKey hk, ofNat_length_of_currentKey hk]

end Sys2Proof.Machine
end

section
/-! PROOFS. Streamed Murmur hashes with other transactions between the bytes (42_murmur.md R153, 10_state.md R46), the
second use of the induction along the run, and trailing zero bytes (R154). -/

namespace Sys2Proof.Machine

/-! ### The Murmur core along a run (R153, R46) -/

theorem hsel_eq_fnv_of_not_tableUses {s : State} (hv : s.tvalid = true) (hu : tableUses .mur s = false) :
    s.hsel = .fnv := by
  cases hsel : s.hsel with
  | fnv => rfl
  | mur => simp [tableUses, hv, hsel] at hu

section
variable {i : Instr} {s t : State} {bs cs : Key}

/-- A state with the same Murmur registers stands where the same bytes leave it. -/
theorem HoldsMurmur.congr (h : HoldsMurmur bs s) (ht : t.murH = s.murH ∧ t.murTail = s.murTail ∧ t.murLen = s.murLen) :
    HoldsMurmur bs t := by
  obtain ⟨hH, hT, hL⟩ := ht
  exact ⟨hH.trans h.murH, hT.trans h.murTail, hL.trans h.murLen⟩

/-- The Murmur column of R46: the commands outside it, and a table command that does not use the core, because there is
no table or HSEL selects the other core, leave the three registers. -/
theorem murRegisters_of_not_written (h : exec i s = .next t) (hw : i ∉ [Instr.murInit, .murBlock, .murKey])
    (hb : ∀ b, i ≠ .murByte b) (hu : hashesTheKey i = true → tableUses .mur s = false) :
    t.murH = s.murH ∧ t.murTail = s.murTail ∧ t.murLen = s.murLen := by
  by_cases hfail : hashesTheKey i = true ∧ s.tvalid = false
  · obtain ⟨hi, hv⟩ := hfail
    rw [exec_hashesTheKey_without_table hi hv] at h
    cases h
    exact ⟨rfl, rfl, rfl⟩
  · have hfnv (hi : hashesTheKey i = true) : s.hsel = .fnv :=
      hsel_eq_fnv_of_not_tableUses (Bool.eq_true_of_not_eq_false fun hv => hfail ⟨hi, hv⟩) (hu hi)
    obtain ⟨-, -, -, -, -, -, -, -, -, hmur, -⟩ := commandsWriteOnlyTheirState i s t h
    exact hmur hw hb hfnv

/-- A command runs the core over the bytes it gives to a streamed hash, as long as the length fits its count. -/
theorem HoldsMurmur.exec_murBytes (hs : HoldsMurmur bs s) (hc : murBytes s i = some cs) (h : exec i s = .next t)
    (hlen : (bs ++ cs).length ≤ 2 ^ 32 - 1) : HoldsMurmur (bs ++ cs) t := by
  rw [List.length_append] at hlen
  cases i with
  | murByte b =>
    cases hc
    cases (hs.exec_murByte b hlen).symm.trans h
    exact holdsMurmur_withMurmur _ s
  | murBlock =>
    cases hc
    by_cases hr : s.murLen.toNat % 4 = 0
    · rw [if_pos hr] at hlen ⊢
      rw [hs.toNat_murLen (by omega)] at hr
      cases (hs.exec_murBlock rfl (leWord_byteOf s.arg) hr hlen).symm.trans h
      exact holdsMurmur_withMurmur _ s
    · rw [if_neg hr, List.append_nil]
      cases (exec_murBlock_off_boundary hr).symm.trans h
      exact hs.congr ⟨rfl, rfl, rfl⟩
  | murInit | murKey => cases hc
  | tblAdd | tblContains | tblRemove =>
    rw [murBytes] at hc
    split at hc
    · cases hc
    · cases hc
      rw [List.append_nil]
      exact hs.congr (murRegisters_of_not_written h (by simp) nofun fun _ => Bool.eq_false_of_not_eq_true ‹_›)
  | nop | clrErr | keyClr | keyPush | keyPushw | fnvInit | fnvByte | fnvFinal | fnvKey | murFinal | tblInit | tblDiscard
  | tblDist | tblColl | tblSize =>
    cases hc
    rw [List.append_nil]
    exact hs.congr (murRegisters_of_not_written h (by simp) nofun nofun)

end

theorem carriesOn_murmur : CarriesOn murBytes fun s bs => bs.length ≤ 2 ^ 32 - 1 → HoldsMurmur bs s where
  exec {i s t bs cs} _ hP hc h hlen := by
    have hbs : bs.length ≤ 2 ^ 32 - 1 := by
      rw [List.length_append] at hlen
      omega
    exact (hP hbs).exec_murBytes hc h hlen
  host _ _ hP hlen := (hP hlen).congr ⟨rfl, rfl, rfl⟩
  illegal hP hlen := (hP hlen).congr ⟨rfl, rfl, rfl⟩

/-- Settles O40: MUR_INIT begins the induction along the run, and MUR_FINAL reads where it ends. -/
theorem streamedMurmurIsMurmur : Obligations.StreamedMurmurIsMurmur := by
  refine ⟨execAll_streamed_murmur, fun ts s bs hs hwf hbs hlen => ?_⟩
  have hinit := (perform_lineCmd .murInit s).trans (exec_murInit s)
  obtain ⟨u, hu, hP⟩ := carriesOn_murmur.performAll (bs := []) (perform_keeps_inv hs hinit)
    (fun _ => ⟨rfl, rfl, rfl⟩) hwf hbs
  have hold : HoldsMurmur bs u := hP hlen
  have hfinal := (perform_lineCmd .murFinal u).trans (hold.exec_murFinal hlen)
  have hrest := (performAll_append_next hu).trans (performAll_cons_next (xs := []) hfinal)
  exact ⟨_, (performAll_cons_next hinit).trans hrest, hold.murH, hold.murTail, hold.murLen, rfl⟩

/-! ### Trailing zero bytes (R154) -/

/-- A zero byte at the high end adds nothing to a little-endian word. -/
theorem leWord_append_zeros (xs : Key) (n : Nat) : leWord (xs ++ List.replicate n 0) = leWord xs := by
  induction n with
  | zero => rw [List.replicate_zero, List.append_nil]
  | succ n ih =>
    have hzero (r : Nat) : shl32 (zext32 0) r = 0 := BitVec.zero_shiftLeft r
    rw [List.replicate_succ', ← List.append_assoc, leWord_snoc, ih, hzero]
    exact BitVec.or_zero

/-- Keys with the same `h_q` and tail and different lengths differ in the raw value, because only the length enters the
last XOR besides, and the finalizer loses nothing. -/
theorem murmurRaw_ne_of_length_ne {bs cs : Key} (hH : murHashOf cs = murHashOf bs) (hT : murTailOf cs = murTailOf bs)
    (hne : BitVec.ofNat 32 cs.length ≠ BitVec.ofNat 32 bs.length) : murmurRaw cs ≠ murmurRaw bs := by
  intro h
  rw [murmurRaw, murmurRaw, hH, hT] at h
  exact hne ((BitVec.xor_right_inj _).1 (fmix32_bijective.1 h))

/-- Settles O41. -/
theorem trailingZeroBytesChangeTheRawHash : Obligations.TrailingZeroBytesChangeTheRawHash := by
  intro bs n hn hblocks hlen
  have hpart : (bs.length + (List.replicate n (0 : Byte)).length) / 4 = bs.length / 4 := by
    rwa [List.length_replicate]
  have hH := murHashOf_append_part hpart
  have hT : murTailOf (bs ++ List.replicate n 0) = murTailOf bs :=
    (murTailOf_append_part hpart).trans (leWord_append_zeros _ n)
  refine ⟨hH, hT, murmurRaw_ne_of_length_ne hH hT fun h => ?_⟩
  have hnat := congrArg BitVec.toNat h
  rw [List.length_append, List.length_replicate, BitVec.toNat_ofNat, BitVec.toNat_ofNat, Nat.mod_eq_of_lt (by omega),
    Nat.mod_eq_of_lt (by omega)] at hnat
  omega

end Sys2Proof.Machine
end

section
/-! PROOFS. The commands of the Chained Hash Table (43_table.md R172 to R194): what each one does on a live table, and
what a failing one does. -/

namespace Sys2Proof.Machine

/-! ### Without a table (R182) -/

theorem exec_needsTable_without_table {i : Instr} {s : State} (hi : needsTable i = true) (hv : s.tvalid = false) :
    exec i s = .next (raise .enotbl s) :=
  match i, hi with
  | .tblDiscard, _ | .tblAdd, _ | .tblContains, _ | .tblRemove, _ | .tblDist, _ | .tblColl, _ | .tblSize, _ =>
    withTable_none hv _

/-! ### Creating and dropping the table (R172 to R175) -/

section
variable {s : State}

theorem exec_tblInit_of_room (sel : Hasher) (hv : s.tvalid = false) (hpos : s.arg ≠ 0)
    (hmax : s.arg.toNat ≤ s.cfg.maxBuckets) :
    exec (.tblInit sel) s = .next { s with
      tvalid := true, hsel := sel, buckets := s.arg, size := 0, chains := [], err := 0 } :=
  (if_neg (by simp [hv])).trans (if_neg (not_or.2 ⟨hpos, not_lt.2 hmax⟩))

theorem exec_tblInit_live (sel : Hasher) (hv : s.tvalid = true) : exec (.tblInit sel) s = .next (raise .ebusy s) :=
  if_pos hv

theorem exec_tblInit_bad_count (sel : Hasher) (hv : s.tvalid = false)
    (harg : s.arg = 0 ∨ s.arg.toNat > s.cfg.maxBuckets) : exec (.tblInit sel) s = .next (raise .ecfg s) :=
  (if_neg (by simp [hv])).trans (if_pos harg)

theorem exec_tblDiscard_live (hv : s.tvalid = true) :
    exec .tblDiscard s = .next { s with
      tvalid := false, hsel := .fnv, buckets := 0, size := 0, chains := [], err := 0 } :=
  withTable_live hv _

end

/-- Settles O42: a count of at least 1 is not the zero word. -/
theorem tblInitCreatesAnEmptyTable : Obligations.TblInitCreatesAnEmptyTable := by
  refine ⟨decode_encode (.tblInit .fnv), decode_encode (.tblInit .mur), fun s sel hv hpos hmax => ?_,
    fun s sel => exec_tblInit_live sel, fun s sel => exec_tblInit_bad_count sel⟩
  have hne : s.arg ≠ 0 := fun h0 => absurd hpos (by simp [h0])
  exact ⟨_, exec_tblInit_of_room sel hv hne hmax, rfl, chainOf_nil⟩

/-- Settles O43. -/
theorem tblDiscardDropsTheTable : Obligations.TblDiscardDropsTheTable :=
  ⟨decode_encode .tblDiscard, fun _ hv => ⟨_, exec_tblDiscard_live hv, rfl, chainOf_nil⟩,
    fun _ => exec_needsTable_without_table rfl⟩

/-! ### The state with one entry more, or one less (R178, R186) -/

/-- The state after a successful `TBL_ADD` of `k`. -/
def withKeyAdded (k : Key) (s : State) : State :=
  { lookedUp k s with
    chains := setChain s.chains (bucketOf k s) (chainOf s.chains (bucketOf k s) ++ [k]), size := s.size + 1, err := 0 }

/-- The state after a successful `TBL_REMOVE` of `k`. -/
def withKeyRemoved (k : Key) (s : State) : State :=
  { lookedUp k s with
    chains := setChain s.chains (bucketOf k s) ((chainOf s.chains (bucketOf k s)).erase k), size := s.size - 1
    result := 1, err := 0 }

/-- The chain a table command searches or extends is that of the key's bucket. -/
theorem idxChain_lookedUp (k : Key) (s : State) : idxChain (lookedUp k s) = chainOf s.chains (bucketOf k s) := by
  rw [idxChain, lookedUp_idx_toNat, lookedUp_chains]

section
variable {s : State} {k : Key}

@[simp] theorem withKeyAdded_chains : (withKeyAdded k s).chains =
    setChain s.chains (bucketOf k s) (chainOf s.chains (bucketOf k s) ++ [k]) := rfl
@[simp] theorem withKeyAdded_size : (withKeyAdded k s).size = s.size + 1 := rfl
@[simp] theorem withKeyAdded_cfg : (withKeyAdded k s).cfg = s.cfg := lookedUp_cfg k s
@[simp] theorem withKeyAdded_tvalid : (withKeyAdded k s).tvalid = s.tvalid := lookedUp_tvalid k s
@[simp] theorem withKeyAdded_hsel : (withKeyAdded k s).hsel = s.hsel := lookedUp_hsel k s
@[simp] theorem withKeyAdded_buckets : (withKeyAdded k s).buckets = s.buckets := lookedUp_buckets k s

@[simp] theorem withKeyRemoved_chains : (withKeyRemoved k s).chains =
    setChain s.chains (bucketOf k s) ((chainOf s.chains (bucketOf k s)).erase k) := rfl
@[simp] theorem withKeyRemoved_hsel : (withKeyRemoved k s).hsel = s.hsel := lookedUp_hsel k s
@[simp] theorem withKeyRemoved_buckets : (withKeyRemoved k s).buckets = s.buckets := lookedUp_buckets k s

theorem chainOf_withKeyAdded_same (hw : chainsWf s.chains = true) :
    chainOf (withKeyAdded k s).chains (bucketOf k s) = chainOf s.chains (bucketOf k s) ++ [k] :=
  chainOf_setChain_same _ _ hw

theorem chainOf_withKeyAdded_other {i : Nat} (hi : i ≠ bucketOf k s) :
    chainOf (withKeyAdded k s).chains i = chainOf s.chains i :=
  chainOf_setChain_other _ _ hi

theorem chainOf_withKeyRemoved_same (hw : chainsWf s.chains = true) :
    chainOf (withKeyRemoved k s).chains (bucketOf k s) = (chainOf s.chains (bucketOf k s)).erase k :=
  chainOf_setChain_same _ _ hw

theorem chainOf_withKeyRemoved_other {i : Nat} (hi : i ≠ bucketOf k s) :
    chainOf (withKeyRemoved k s).chains i = chainOf s.chains i :=
  chainOf_setChain_other _ _ hi

/-! ### Adding (R178, R179) -/

theorem exec_tblAdd_of_room (hv : s.tvalid = true) (hroom : s.size.toNat ≠ s.cfg.maxEntries)
    (hk : currentKey s = some k) : exec .tblAdd s = .next (withKeyAdded k s) := by
  show execTblAdd s = _
  rw [execTblAdd, withTable_live hv, if_neg hroom, withHashedKey_of_currentKey hk, idxChain_lookedUp,
    lookedUp_idx_toNat, lookedUp_chains, lookedUp_size]
  rfl

theorem exec_tblAdd_full (hv : s.tvalid = true) (hfull : s.size.toNat = s.cfg.maxEntries) :
    exec .tblAdd s = .next (raise .efull s) :=
  (withTable_live hv _).trans (if_pos hfull)

end

/-- Settles O44. -/
theorem tblAddAppendsTheKey : Obligations.TblAddAppendsTheKey :=
  ⟨decode_encode .tblAdd, fun _ _ hv hw hroom hk => ⟨_, exec_tblAdd_of_room hv hroom hk, rfl,
    chainOf_withKeyAdded_same hw, fun _ => chainOf_withKeyAdded_other⟩, fun _ => exec_tblAdd_full,
    fun _ => exec_needsTable_without_table rfl⟩

/-! ### Searching (R180, R186, R187) -/

theorem mem_of_findKey {k : Key} {es : List Key} {j : Nat} (h : findKey k es = some j) : k ∈ es :=
  List.mem_of_getElem? (findKey_eq_some.1 h).1

theorem exists_findKey_of_mem {k : Key} {es : List Key} (h : k ∈ es) : ∃ j, findKey k es = some j :=
  Option.ne_none_iff_exists'.1 fun hn => findKey_eq_none.1 hn h

section
variable {s : State} {k : Key}

theorem exec_tblContains_live (hv : s.tvalid = true) (hk : currentKey s = some k) :
    exec .tblContains s = .next { lookedUp k s with
      result := if k ∈ chainOf s.chains (bucketOf k s) then 1 else 0, err := 0 } := by
  show execTblContains s = _
  rw [execTblContains, withTable_live hv, withHashedKey_of_currentKey hk, idxChain_lookedUp]
  cases hf : findKey k (chainOf s.chains (bucketOf k s)) with
  | none => rw [if_neg (findKey_eq_none.1 hf)]; rfl
  | some j => rw [if_pos (mem_of_findKey hf)]; rfl

theorem exec_tblRemove_present (hv : s.tvalid = true) (hk : currentKey s = some k)
    (hmem : k ∈ chainOf s.chains (bucketOf k s)) : exec .tblRemove s = .next (withKeyRemoved k s) := by
  obtain ⟨j, hj⟩ := exists_findKey_of_mem hmem
  show execTblRemove s = _
  rw [execTblRemove, withTable_live hv, withHashedKey_of_currentKey hk, idxChain_lookedUp, hj]
  dsimp only
  rw [without_eq_eraseIdx, eraseIdx_findKey hj, lookedUp_idx_toNat, lookedUp_chains, lookedUp_size]
  rfl

theorem exec_tblRemove_absent (hv : s.tvalid = true) (hk : currentKey s = some k)
    (hmem : k ∉ chainOf s.chains (bucketOf k s)) :
    exec .tblRemove s = .next (raise .enotfound { lookedUp k s with result := 0 }) := by
  show execTblRemove s = _
  rw [execTblRemove, withTable_live hv, withHashedKey_of_currentKey hk, idxChain_lookedUp, findKey_eq_none.2 hmem]
  rfl

end

/-- Settles O45. -/
theorem tblContainsSearchesOneChain : Obligations.TblContainsSearchesOneChain :=
  ⟨decode_encode .tblContains, fun _ _ => exec_tblContains_live, fun _ => exec_needsTable_without_table rfl⟩

/-- Settles O46. -/
theorem tblRemoveDeletesTheFirstMatch : Obligations.TblRemoveDeletesTheFirstMatch :=
  ⟨decode_encode .tblRemove, fun _ _ hv hw hk hmem => ⟨_, exec_tblRemove_present hv hk hmem, rfl,
    chainOf_withKeyRemoved_same hw, fun _ => chainOf_withKeyRemoved_other⟩, fun _ _ => exec_tblRemove_absent,
    fun _ => exec_needsTable_without_table rfl⟩

/-! ### The bucket index (R176) -/

/-- A command that hashes the key and passes its checks leaves the key's digest in DIGEST and its bucket in IDX, also
when it then fails with `ENOTFOUND`. -/
theorem digest_idx_of_hashesTheKey {i : Instr} {s t : State} (hi : hashesTheKey i = true) (hv : s.tvalid = true)
    (hroom : i = .tblAdd → s.size.toNat ≠ s.cfg.maxEntries) (h : exec i s = .next t) :
    ∃ k, t.digest = hashOf s.hsel k ∧ t.idx = umod (hashOf s.hsel k) s.buckets := by
  have hlive : s.tvalid ≠ false := by rw [hv]; decide
  match i, hi with
  | .tblAdd, _ =>
    obtain ⟨hv', -⟩ | ⟨-, hfull, -⟩ | ⟨-, -, k, -, rfl⟩ := execTblAdd_next h
    · exact absurd hv' hlive
    · exact absurd hfull (hroom rfl)
    · exact ⟨k, lookedUp_digest k s, lookedUp_idx k s⟩
  | .tblContains, _ =>
    obtain ⟨hv', -⟩ | ⟨-, k, -, rfl⟩ := execTblContains_next h
    · exact absurd hv' hlive
    · exact ⟨k, lookedUp_digest k s, lookedUp_idx k s⟩
  | .tblRemove, _ =>
    obtain ⟨hv', -⟩ | ⟨-, k, -, ⟨-, rfl⟩ | ⟨j, -, rfl⟩⟩ := execTblRemove_next h
    · exact absurd hv' hlive
    · exact ⟨k, lookedUp_digest k s, lookedUp_idx k s⟩
    · exact ⟨k, lookedUp_digest k s, lookedUp_idx k s⟩

/-- Settles O50: the remainder is unsigned, so the digest `0x80000000` is divided as `2^31`. -/
theorem bucketIndexIsInRange : Obligations.BucketIndexIsInRange := by
  intro i s t hi hv hb hroom h
  obtain ⟨k, hdigest, hidx⟩ := digest_idx_of_hashesTheKey hi hv hroom h
  have hmod : t.idx.toNat = t.digest.toNat % s.buckets.toNat := by rw [hidx, hdigest, umod, BitVec.toNat_umod]
  have hpos : 0 < s.buckets.toNat := Nat.pos_of_ne_zero fun h0 => hb (BitVec.eq_of_toNat_eq h0)
  refine ⟨hmod, hmod ▸ Nat.mod_lt _ hpos, fun hedge => ⟨?_, decide_eq_true hedge⟩⟩
  rw [hmod, hedge]
  rfl

/-! ### SIZE (R194) -/

theorem exec_tblSize_live {s : State} (hv : s.tvalid = true) :
    exec .tblSize s = .next { s with result := s.size, err := 0 } :=
  withTable_live hv _

/-- Settles O49. -/
theorem tblSizeGivesTheSize : Obligations.TblSizeGivesTheSize := by
  refine ⟨decode_encode .tblSize, fun _ => exec_tblSize_live, fun s => ⟨rfl, fun hs hv => ?_⟩,
    fun _ => exec_needsTable_without_table rfl⟩
  obtain ⟨-, hsize, -, -⟩ := hs.live.2 hv
  exact hsize

end Sys2Proof.Machine
end

section
/-! PROOFS. What a command that answers did to the chains of a live table (43_table.md R195, R196): a failing `TBL_ADD`
or `TBL_REMOVE` leaves them, a successful one changes the chain of the key's own bucket. -/

namespace Sys2Proof.Machine

/-! ### Success and failure of `TBL_ADD` and `TBL_REMOVE` (R178, R186) -/

theorem raise_err_ne_zero (c : ErrCode) (s : State) : (raise c s).err ≠ 0 := by
  have hpos := (errCode_range c).1
  intro h
  rw [← raise_err c s, h] at hpos
  exact absurd hpos (by decide)

section
variable {s t : State} {k : Key}

theorem tblAdd_failed_or_added (h : exec .tblAdd s = .next t) :
    (t.err ≠ 0 ∧ t.chains = s.chains) ∨ (s.tvalid = true ∧ ∃ k, currentKey s = some k ∧ t = withKeyAdded k s) := by
  obtain ⟨-, rfl⟩ | ⟨-, -, rfl⟩ | ⟨hv, -, k, hk, rfl⟩ := execTblAdd_next h
  · exact .inl ⟨raise_err_ne_zero _ _, rfl⟩
  · exact .inl ⟨raise_err_ne_zero _ _, rfl⟩
  · exact .inr ⟨hv, k, hk, rfl⟩

theorem tblRemove_failed_or_removed (h : exec .tblRemove s = .next t) :
    (t.err ≠ 0 ∧ t.chains = s.chains) ∨ (s.tvalid = true ∧ ∃ k, currentKey s = some k ∧
      k ∈ chainOf s.chains (bucketOf k s) ∧ t = withKeyRemoved k s) := by
  obtain ⟨-, rfl⟩ | ⟨hv, k, hk, ⟨-, rfl⟩ | ⟨j, hj, rfl⟩⟩ := execTblRemove_next h
  · exact .inl ⟨raise_err_ne_zero _ _, rfl⟩
  · exact .inl ⟨raise_err_ne_zero _ _, lookedUp_chains k s⟩
  · exact .inr ⟨hv, k, hk, mem_of_findKey hj, by rw [eraseIdx_findKey hj]; rfl⟩

theorem tblAdd_succeeded (hk : currentKey s = some k) (h : exec .tblAdd s = .next t) (herr : t.err = 0) :
    s.tvalid = true ∧ t = withKeyAdded k s := by
  obtain ⟨hne, -⟩ | ⟨hv, k', hk', rfl⟩ := tblAdd_failed_or_added h
  · exact absurd herr hne
  · obtain rfl := Option.some.inj (hk.symm.trans hk')
    exact ⟨hv, rfl⟩

theorem tblRemove_succeeded (hk : currentKey s = some k) (h : exec .tblRemove s = .next t) (herr : t.err = 0) :
    s.tvalid = true ∧ k ∈ chainOf s.chains (bucketOf k s) ∧ t = withKeyRemoved k s := by
  obtain ⟨hne, -⟩ | ⟨hv, k', hk', hmem, rfl⟩ := tblRemove_failed_or_removed h
  · exact absurd herr hne
  · obtain rfl := Option.some.inj (hk.symm.trans hk')
    exact ⟨hv, hmem, rfl⟩

/-! ### No rehash (R196) -/

/-- On a live table `TBL_INIT` fails, and but for `TBL_DISCARD` no other command writes the table's own registers
(R46). -/
theorem exec_keeps_live_table {i : Instr} (hv : s.tvalid = true) (hi : i ≠ .tblDiscard) (h : exec i s = .next t) :
    t.tvalid = true ∧ t.buckets = s.buckets ∧ t.hsel = s.hsel ∧
      (i ≠ .tblAdd → i ≠ .tblRemove → t.chains = s.chains) := by
  by_cases hinit : ∃ sel, i = .tblInit sel
  · obtain ⟨sel, rfl⟩ := hinit
    cases (exec_tblInit_live sel hv).symm.trans h
    exact ⟨hv, rfl, rfl, fun _ _ => rfl⟩
  · obtain ⟨-, -, -, -, -, -, -, -, -, -, htable⟩ := commandsWriteOnlyTheirState i s t h
    obtain ⟨htv, hh, hb, hrest⟩ := htable hi fun sel he => hinit ⟨sel, he⟩
    exact ⟨htv.trans hv, hb, hh, fun ha hr => (hrest ha hr).2⟩

theorem failed_exec_keeps_chains {i : Instr} (hv : s.tvalid = true) (hi : i ≠ .tblDiscard) (h : exec i s = .next t)
    (herr : t.err ≠ 0) : t.chains = s.chains := by
  by_cases ha : i = .tblAdd
  · subst ha
    obtain ⟨-, hc⟩ | ⟨-, k, -, rfl⟩ := tblAdd_failed_or_added h
    · exact hc
    · exact absurd rfl herr
  by_cases hr : i = .tblRemove
  · subst hr
    obtain ⟨-, hc⟩ | ⟨-, k, -, -, rfl⟩ := tblRemove_failed_or_removed h
    · exact hc
    · exact absurd rfl herr
  · obtain ⟨-, -, -, hc⟩ := exec_keeps_live_table hv hi h
    exact hc ha hr

end

/-- Settles O54. -/
theorem liveTableIsNeverRehashed : Obligations.LiveTableIsNeverRehashed := by
  intro i s t hv hw hi h
  obtain ⟨htv, hb, hh, hc⟩ := exec_keeps_live_table hv hi h
  refine ⟨htv, hb, hh, ?_, ?_, ?_⟩
  · rintro (⟨ha, hr⟩ | herr)
    · exact hc ha hr
    · exact failed_exec_keeps_chains hv hi h herr
  · rintro rfl herr
    obtain ⟨hne, -⟩ | ⟨-, k, hk, rfl⟩ := tblAdd_failed_or_added h
    · exact absurd herr hne
    · exact ⟨k, hk, chainOf_withKeyAdded_same hw, fun _ => chainOf_withKeyAdded_other⟩
  · rintro rfl herr
    obtain ⟨hne, -⟩ | ⟨-, k, hk, hmem, rfl⟩ := tblRemove_failed_or_removed h
    · exact absurd herr hne
    · exact ⟨k, hk, hmem, chainOf_withKeyRemoved_same hw, fun _ => chainOf_withKeyRemoved_other⟩

/-! ### Copies of a key (R195 (e)) -/

theorem bucketOf_congr {s t : State} (hh : t.hsel = s.hsel) (hb : t.buckets = s.buckets) (k : Key) :
    bucketOf k t = bucketOf k s := by
  rw [bucketOf, bucketOf, hh, hb]

theorem copiesOf_withKeyAdded {s : State} (k k' : Key) (hw : chainsWf s.chains = true) :
    copiesOf k' (withKeyAdded k s) = copiesOf k' s + if k' = k then 1 else 0 := by
  rw [copiesOf, copiesOf, bucketOf_congr withKeyAdded_hsel withKeyAdded_buckets]
  by_cases hb : bucketOf k' s = bucketOf k s
  · rw [hb, chainOf_withKeyAdded_same hw, List.count_append, List.count_singleton]
    simp only [beq_iff_eq, eq_comm (a := k)]
  · have hne : k' ≠ k := fun he => hb (he ▸ rfl)
    rw [chainOf_withKeyAdded_other hb, if_neg hne, Nat.add_zero]

theorem copiesOf_withKeyRemoved {s : State} {k : Key} (k' : Key) (hw : chainsWf s.chains = true)
    (hmem : k ∈ chainOf s.chains (bucketOf k s)) :
    copiesOf k' s = copiesOf k' (withKeyRemoved k s) + if k' = k then 1 else 0 := by
  rw [copiesOf, copiesOf, bucketOf_congr withKeyRemoved_hsel withKeyRemoved_buckets]
  by_cases hb : bucketOf k' s = bucketOf k s
  · rw [hb, chainOf_withKeyRemoved_same hw]
    by_cases hk : k' = k
    · subst hk
      rw [List.count_erase_self, if_pos rfl, Nat.sub_add_cancel (List.count_pos_iff.2 hmem)]
    · rw [List.count_erase_of_ne hk, if_neg hk, Nat.add_zero]
  · have hne : k' ≠ k := fun he => hb (he ▸ rfl)
    rw [chainOf_withKeyRemoved_other hb, if_neg hne, Nat.add_zero]

/-- Settles O55. -/
theorem copiesOfAKeyAreCounted : Obligations.CopiesOfAKeyAreCounted := by
  refine ⟨fun s t k k' hs hk h herr => ?_, fun s t k k' hs hk h herr => ?_, fun s t k hk hv h => ?_⟩
  · obtain ⟨-, rfl⟩ := tblAdd_succeeded hk h herr
    exact copiesOf_withKeyAdded k k' hs.chain.1
  · obtain ⟨-, hmem, rfl⟩ := tblRemove_succeeded hk h herr
    exact copiesOf_withKeyRemoved k' hs.chain.1 hmem
  · cases (exec_tblContains_live hv hk).symm.trans h
    simp only [copiesOf, List.count_pos_iff]

end Sys2Proof.Machine
end

section
/-! PROOFS. Chain lengths and collisions (43_table.md R190 to R193): the sums over the buckets against SIZE, and the
commands that report them. -/

namespace Sys2Proof.Machine

/-! ### Sums over the buckets (R40 (a), R192, R193 (a)) -/

theorem entryCount_eq_sum (c : List (Nat × List Key)) (n : Nat) :
    entryCount c n = ((List.range n).map fun i => (chainOf c i).length).sum := by
  induction n with
  | zero => rfl
  | succ n ih => rw [List.sum_range_succ, entryCount, ih]

theorem collisionCount_eq_sum (c : List (Nat × List Key)) (n : Nat) :
    collisionCount c n = ((List.range n).map fun i => (chainOf c i).length - 1).sum := by
  induction n with
  | zero => rfl
  | succ n ih => rw [List.sum_range_succ, collisionCount, ih]

/-- Each occupied bucket has one entry that is no collision. -/
theorem collisionCount_add_occupiedCount (c : List (Nat × List Key)) (n : Nat) :
    collisionCount c n + occupiedCount c n = entryCount c n := by
  induction n with
  | zero => rfl
  | succ n ih =>
    rw [collisionCount, occupiedCount, entryCount, ← ih]
    by_cases h : chainOf c n = []
    · rw [if_pos h, h, List.length_nil]
      omega
    · have hpos := List.length_pos_iff.2 h
      rw [if_neg h]
      omega

theorem occupiedCount_pos {c : List (Nat × List Key)} {n : Nat} (h : 0 < entryCount c n) : 0 < occupiedCount c n := by
  induction n with
  | zero => exact h
  | succ n ih =>
    rw [occupiedCount]
    by_cases hn : chainOf c n = []
    · rw [entryCount, hn, List.length_nil, Nat.add_zero] at h
      exact Nat.add_pos_left (ih h) _
    · rw [if_neg hn]
      exact Nat.succ_pos _

theorem toNat_ofNat_of_lt {n : Nat} (h : n < 2 ^ 32) : (BitVec.ofNat 32 n).toNat = n :=
  (BitVec.toNat_ofNat ..).trans (Nat.mod_eq_of_lt h)

section
variable {s : State}

theorem Inv.collisions_add_occupied (hs : Inv s) :
    collisionCount s.chains s.buckets.toNat + occupiedCount s.chains s.buckets.toNat = s.size.toNat :=
  (collisionCount_add_occupiedCount _ _).trans hs.size.1.symm

theorem Inv.chain_length_le_size (hs : Inv s) {i : Nat} (hi : i < s.buckets.toNat) :
    (chainOf s.chains i).length ≤ s.size.toNat :=
  hs.size.1 ▸ length_le_entryCount s.chains hi

/-- A count that SIZE bounds fits RESULT. -/
theorem toNat_ofNat_of_le_size {n : Nat} (h : n ≤ s.size.toNat) : (BitVec.ofNat 32 n).toNat = n :=
  toNat_ofNat_of_lt (h.trans_lt s.size.isLt)

/-! ### One chain (R190) -/

theorem exec_tblDist_in_range (hv : s.tvalid = true) (hi : s.arg.toNat < s.buckets.toNat) :
    exec .tblDist s = .next { s with
      result := BitVec.ofNat 32 (chainOf s.chains s.arg.toNat).length, err := 0 } :=
  (withTable_live hv _).trans (if_neg (not_le.2 hi))

theorem exec_tblDist_out_of_range (hv : s.tvalid = true) (hi : s.buckets.toNat ≤ s.arg.toNat) :
    exec .tblDist s = .next (raise .erange s) :=
  (withTable_live hv _).trans (if_pos hi)

end

/-- Settles O47: a chain is no longer than SIZE, which is a register. -/
theorem tblDistGivesAChainLength : Obligations.TblDistGivesAChainLength :=
  ⟨decode_encode .tblDist, fun _ hs hv hi => ⟨_, exec_tblDist_in_range hv hi, rfl,
    toNat_ofNat_of_le_size (hs.chain_length_le_size hi)⟩, fun _ => exec_tblDist_out_of_range,
    fun _ => exec_needsTable_without_table rfl⟩

/-! ### The distribution (R191) -/

section
variable {s : State}

/-- `DIST i` of a bucket of the table returns the length of its chain (R89). -/
theorem performAll_distLines (hv : s.tvalid = true) {i : Nat} (hi : i < s.buckets.toNat) :
    performAll (distLines (BitVec.ofNat 32 i)) s = .next { s with
      arg := BitVec.ofNat 32 i, result := BitVec.ofNat 32 (chainOf s.chains i).length, err := 0
      returned := s.returned ++ [BitVec.ofNat 32 (chainOf s.chains i).length] } := by
  have harg : (BitVec.ofNat 32 i).toNat = i := toNat_ofNat_of_lt (hi.trans s.buckets.isLt)
  have hdist : exec .tblDist { s with arg := BitVec.ofNat 32 i } = .next { s with
      arg := BitVec.ofNat 32 i, result := BitVec.ofNat 32 (chainOf s.chains i).length, err := 0 } := by
    rw [exec_tblDist_in_range (s := { s with arg := BitVec.ofNat 32 i }) hv (by rwa [harg]), harg]
  rw [distLines, lineArg, performAll_cons_next (perform_write_arg s _),
    performAll_cons_next ((perform_lineCmd .tblDist _).trans hdist), lineRd,
    performAll_cons_next (perform_read _ (by decide) (by decide)), performAll_nil]
  rfl

/-- The lines of GETDIST for the first `n` buckets return their chain lengths in order, and change nothing else but
ARG, RESULT and ERR. -/
theorem performAll_getdist (hv : s.tvalid = true) {n : Nat} (hn : n ≤ s.buckets.toNat) :
    ∃ a r e, performAll ((List.range n).flatMap fun i => distLines (BitVec.ofNat 32 i)) s = .next { s with
      arg := a, result := r, err := e
      returned := s.returned ++ (List.range n).map fun i => BitVec.ofNat 32 (chainOf s.chains i).length } := by
  induction n with
  | zero => exact ⟨s.arg, s.result, s.err, by simp⟩
  | succ n ih =>
    obtain ⟨a, r, e, hu⟩ := ih (Nat.le_of_succ_le hn)
    rw [List.range_succ, List.flatMap_append, performAll_append_next hu, List.flatMap_singleton, List.map_append,
      ← List.append_assoc]
    exact ⟨_, _, _, performAll_distLines (s := { s with arg := a, result := r, err := e, returned := _ }) hv hn⟩

end

/-- Settles O53. -/
theorem distributionSumsToSize : Obligations.DistributionSumsToSize := by
  intro s hs hv
  obtain ⟨a, r, e, ht⟩ := performAll_getdist hv le_rfl
  exact ⟨_, ht, ⟨rfl, rfl, rfl, rfl, rfl⟩, rfl, (entryCount_eq_sum _ _).symm.trans hs.size.1.symm⟩

/-! ### The collision count (R192, R193) -/

theorem exec_tblColl_live {s : State} (hv : s.tvalid = true) :
    exec .tblColl s = .next { s with
      result := BitVec.ofNat 32 (collisionCount s.chains s.buckets.toNat), err := 0 } :=
  withTable_live hv _

/-- Settles O48: with an entry in the table there is an occupied bucket, whose first entry is no collision. -/
theorem tblCollSumsTheCollisions : Obligations.TblCollSumsTheCollisions := by
  refine ⟨decode_encode .tblColl, fun s hs hv => ?_, fun _ => exec_needsTable_without_table rfl⟩
  have hsum := hs.collisions_add_occupied
  have hres := toNat_ofNat_of_le_size (s := s) (hsum ▸ Nat.le_add_right _ _)
  refine ⟨_, exec_tblColl_live hv, rfl, hres.trans (collisionCount_eq_sum _ _), fun hsize => ?_⟩
  have hocc : 0 < occupiedCount s.chains s.buckets.toNat := occupiedCount_pos (hs.size.1 ▸ hsize)
  rw [hres]
  omega

theorem collisionCount_withKeyAdded {s : State} (k : Key) (hs : Inv s) (hv : s.tvalid = true) :
    collisionCount (withKeyAdded k s).chains s.buckets.toNat = collisionCount s.chains s.buckets.toNat +
      if chainOf s.chains (bucketOf k s) = [] then 0 else 1 := by
  have hset := collisionCount_setChain (chainOf s.chains (bucketOf k s) ++ [k]) hs.chain.1 (hs.bucketOf_lt hv k)
  rw [List.length_append, List.length_singleton] at hset
  rw [withKeyAdded_chains]
  by_cases hc : chainOf s.chains (bucketOf k s) = []
  · rw [if_pos hc]
    rw [hc, List.length_nil] at hset
    rw [hc]
    omega
  · have hpos := List.length_pos_iff.2 hc
    rw [if_neg hc]
    omega

theorem collisionCount_withKeyRemoved {s : State} {k : Key} (hs : Inv s) (hv : s.tvalid = true)
    (hmem : k ∈ chainOf s.chains (bucketOf k s)) :
    collisionCount s.chains s.buckets.toNat = collisionCount (withKeyRemoved k s).chains s.buckets.toNat +
      if 2 ≤ (chainOf s.chains (bucketOf k s)).length then 1 else 0 := by
  have hset := collisionCount_setChain ((chainOf s.chains (bucketOf k s)).erase k) hs.chain.1 (hs.bucketOf_lt hv k)
  have hpos := List.length_pos_of_mem hmem
  rw [List.length_erase_of_mem hmem] at hset
  rw [withKeyRemoved_chains]
  split <;> omega

/-- Settles O51. -/
theorem collisionCountLaws : Obligations.CollisionCountLaws := by
  refine ⟨fun s hs => hs.collisions_add_occupied, fun s t k hs hk h herr => ?_, fun s t k hs hk h herr => ?_⟩
  · obtain ⟨hv, rfl⟩ := tblAdd_succeeded hk h herr
    rw [withKeyAdded_buckets]
    exact collisionCount_withKeyAdded k hs hv
  · obtain ⟨hv, hmem, rfl⟩ := tblRemove_succeeded hk h herr
    rw [withKeyRemoved_buckets]
    exact collisionCount_withKeyRemoved hs hv hmem

end Sys2Proof.Machine
end

section
/-! PROOFS. Adding keys that all select one bucket (43_table.md R193 (d)): each is loaded and appended in turn, so the
chain of the bucket is the list of the keys. -/

namespace Sys2Proof.Machine

/-- `t` is `s` after the keys `ks`, all of the bucket `b`, were loaded and added in order. -/
structure KeysAdded (b : Nat) (ks : List Key) (s t : State) : Prop where
  inv : Inv t
  cfg : t.cfg = s.cfg
  tvalid : t.tvalid = s.tvalid
  hsel : t.hsel = s.hsel
  buckets : t.buckets = s.buckets
  size : t.size.toNat = s.size.toNat + ks.length
  same : chainOf t.chains b = chainOf s.chains b ++ ks
  other : ∀ i, i ≠ b → chainOf t.chains i = chainOf s.chains i

theorem keysAdded_nil {s : State} (b : Nat) (hs : Inv s) : KeysAdded b [] s s :=
  ⟨hs, rfl, rfl, rfl, rfl, rfl, (List.append_nil _).symm, fun _ _ => rfl⟩

theorem execAll_keeps_inv {is : List Instr} {s t : State} (hs : Inv s) (h : execAll is s = .next t) : Inv t := by
  induction is generalizing s with
  | nil => cases h; exact hs
  | cons i is ih =>
    rw [execAll] at h
    split at h
    · exact ih (exec_keeps_inv hs ‹_›) h
    · cases h
    · cases h

section
variable {s t : State} {k : Key}

/-- Loading a key that fits and adding it, with room in a live table, adds it: loading changes only the key buffer and
ERR. -/
theorem execAll_load_tblAdd (hs : Inv s) (hv : s.tvalid = true) (hroom : s.size.toNat < s.cfg.maxEntries)
    (hfit : k.length ≤ s.cfg.keyMax) :
    ∃ t, execAll (keyCommands k ++ [.tblAdd]) s = .next t ∧ t.err = 0 ∧ KeysAdded (bucketOf k s) [k] s t := by
  obtain ⟨u, hu, hku, hframe⟩ := execAll_keyCommands hs.cfg hfit
  have hcfg : u.cfg = s.cfg := (congrArg State.cfg hframe :)
  have htv : u.tvalid = s.tvalid := (congrArg State.tvalid hframe :)
  have hsel : u.hsel = s.hsel := (congrArg State.hsel hframe :)
  have hbuckets : u.buckets = s.buckets := (congrArg State.buckets hframe :)
  have hsize : u.size = s.size := (congrArg State.size hframe :)
  have hchains : u.chains = s.chains := (congrArg State.chains hframe :)
  have hbucket : bucketOf k u = bucketOf k s := bucketOf_congr hsel hbuckets k
  have hadd : exec .tblAdd u = .next (withKeyAdded k u) :=
    exec_tblAdd_of_room (htv.trans hv) (by rw [hsize, hcfg]; exact hroom.ne) hku
  have hus := execAll_keeps_inv hs hu
  have hsucc : (s.size + 1).toNat = s.size.toNat + 1 := by
    obtain ⟨-, -, hmax⟩ := hs.config_bounds
    exact BitVec.toNat_add_of_lt (show s.size.toNat + 1 < 2 ^ 32 by omega)
  refine ⟨_, (execAll_append_next hu).trans (execAll_cons_next hadd), rfl, exec_keeps_inv hus hadd, ?_, ?_, ?_, ?_, ?_,
    ?_, fun i hi => ?_⟩
  · rw [withKeyAdded_cfg, hcfg]
  · rw [withKeyAdded_tvalid, htv]
  · rw [withKeyAdded_hsel, hsel]
  · rw [withKeyAdded_buckets, hbuckets]
  · rw [withKeyAdded_size, hsize, hsucc, List.length_singleton]
  · rw [← hbucket, chainOf_withKeyAdded_same hus.chain.1, hchains]
  · rw [chainOf_withKeyAdded_other (hbucket ▸ hi), hchains]

theorem KeysAdded.trans {u : State} {b : Nat} {ks ls : List Key} (h : KeysAdded b ks s t) (h' : KeysAdded b ls t u) :
    KeysAdded b (ks ++ ls) s u where
  inv := h'.inv
  cfg := h'.cfg.trans h.cfg
  tvalid := h'.tvalid.trans h.tvalid
  hsel := h'.hsel.trans h.hsel
  buckets := h'.buckets.trans h.buckets
  size := by rw [h'.size, h.size, List.length_append, Nat.add_assoc]
  same := by rw [h'.same, h.same, List.append_assoc]
  other i hi := (h'.other i hi).trans (h.other i hi)

/-- Loading and adding each key of a list in turn, by induction with the last key added last. -/
theorem execAll_load_tblAdd_all {ks : List Key} {b : Nat} (hs : Inv s) (hv : s.tvalid = true)
    (hroom : s.size.toNat + ks.length ≤ s.cfg.maxEntries)
    (hks : ∀ k ∈ ks, k.length ≤ s.cfg.keyMax ∧ bucketOf k s = b) :
    ∃ t, execAll (ks.flatMap fun k => keyCommands k ++ [.tblAdd]) s = .next t ∧ (ks ≠ [] → t.err = 0) ∧
      KeysAdded b ks s t := by
  induction ks using List.reverseRecOn with
  | nil => exact ⟨s, rfl, fun h => absurd rfl h, keysAdded_nil b hs⟩
  | append_singleton ks k ih =>
    rw [List.length_append, List.length_singleton] at hroom
    obtain ⟨hfit, hb⟩ := hks k (by simp)
    obtain ⟨t, ht, -, hadded⟩ := ih (by omega) fun k' hk' => hks k' (List.mem_append_left _ hk')
    have hbt : bucketOf k t = b := (bucketOf_congr hadded.hsel hadded.buckets k).trans hb
    obtain ⟨u, hu, herr, hlast⟩ := execAll_load_tblAdd (k := k) hadded.inv (hadded.tvalid.trans hv)
      (by rw [hadded.size, hadded.cfg]; omega) (by rwa [hadded.cfg])
    refine ⟨u, ?_, fun _ => herr, hadded.trans (hbt ▸ hlast)⟩
    rw [List.flatMap_append, execAll_append_next ht, List.flatMap_singleton, hu]

theorem Inv.chainOf_eq_nil_of_empty (hs : Inv s) (h0 : s.size = 0) {i : Nat} (hi : i < s.buckets.toNat) :
    chainOf s.chains i = [] := by
  have hle := hs.chain_length_le_size hi
  rw [h0] at hle
  exact List.eq_nil_of_length_eq_zero (Nat.le_zero.1 hle)

/-- In a table that was empty the one chain holds all entries, and all but its first are collisions. -/
theorem KeysAdded.collisionCount_of_empty {b : Nat} {ks : List Key} (h : KeysAdded b ks s t) (hs : Inv s)
    (h0 : s.size = 0) (hb : b < s.buckets.toNat) :
    chainOf t.chains b = ks ∧ collisionCount t.chains t.buckets.toNat = ks.length - 1 := by
  have hnil := hs.chainOf_eq_nil_of_empty h0 hb
  have hchain : chainOf t.chains b = ks := by rw [h.same, hnil, List.nil_append]
  have hsame : collisionCount t.chains s.buckets.toNat = collisionCount (setChain s.chains b ks) s.buckets.toNat := by
    refine collisionCount_congr fun i _ => ?_
    by_cases hi : i = b
    · rw [hi, hchain, chainOf_setChain_same _ _ hs.chain.1]
    · rw [h.other i hi, chainOf_setChain_other _ _ hi]
  have hset := collisionCount_setChain ks hs.chain.1 hb
  have hzero := hs.collisions_add_occupied
  rw [hnil, List.length_nil] at hset
  rw [show s.size.toNat = 0 by rw [h0]; rfl] at hzero
  rw [h.buckets, hsame]
  exact ⟨hchain, by omega⟩

end

/-- Settles O52. -/
theorem oneBucketCollisions : Obligations.OneBucketCollisions := by
  intro s ks b hs hv h0 hne hlen hks
  obtain ⟨t, ht, herr, hadded⟩ := execAll_load_tblAdd_all hs hv (by rw [h0]; simpa using hlen) hks
  obtain ⟨k, hk⟩ := List.exists_mem_of_ne_nil ks hne
  obtain ⟨-, hb⟩ := hks k hk
  obtain ⟨hchain, hcoll⟩ := hadded.collisionCount_of_empty hs h0 (hb ▸ hs.bucketOf_lt hv k)
  exact ⟨t, ht, herr hne, hchain, hcoll⟩

end Sys2Proof.Machine
end

section
/-! PROOFS. The words that encode no command (30_encoding.md R85, 60_exceptions.md R222): a word is legal exactly when
its opcode is one of the 22 and the bits its format reserves are zero, and the legal words are those of 788 commands. -/

namespace Sys2Proof.Machine

/-! ### Opcodes and formats (R81, R84) -/

/-- One line of the decoder accepts its own opcode, and the rest of the decoder the others. -/
theorem exists_decode_line_iff {op c : Byte} {a : Instr} {rest : Option Instr} :
    (∃ i, (if op = c then some a else rest) = some i) ↔ op.toNat = c.toNat ∨ ∃ i, rest = some i := by
  rw [BitVec.toNat_inj]
  by_cases h : op = c <;> simp [h]

theorem exists_decodeB_iff {op : Byte} {w : Word} : (∃ i, decodeB op w = some i) ↔ op.toNat ∈ opcodesB := by
  simp only [decodeB, exists_decode_line_iff, opcodesB, List.mem_cons, List.not_mem_nil, reduceCtorEq, exists_false,
    BitVec.reduceToNat]

theorem exists_decodeNA_iff {op : Byte} : (∃ i, decodeNA op = some i) ↔ op.toNat ∈ opcodesNA := by
  simp only [decodeNA, exists_decode_line_iff, opcodesNA, List.mem_cons, List.not_mem_nil, reduceCtorEq, exists_false,
    BitVec.reduceToNat]

theorem not_mem_of_mem_opcodesNA {n : Nat} (h : n ∈ opcodesNA) : n ∉ opcodesB ∧ n ≠ 0x40 :=
  (by decide : ∀ m ∈ opcodesNA, m ∉ opcodesB ∧ m ≠ 0x40) n h

theorem ne_of_mem_opcodesB {n : Nat} (h : n ∈ opcodesB) : n ≠ 0x40 := by
  rintro rfl
  exact absurd h (by decide)

/-! ### Legal and illegal words (R85) -/

/-- A word is legal exactly when the bits that the format of its opcode reserves are zero. -/
theorem exists_decode_ok_iff {w : Word} : (∃ i, decode w = .ok i) ↔
    (w.toNat % 256 ∈ opcodesB ∧ w.toNat / 2 ^ 16 = 0) ∨ (w.toNat % 256 = 0x40 ∧ w.toNat / 2 ^ 9 = 0) ∨
    (w.toNat % 256 ∈ opcodesNA ∧ w.toNat / 2 ^ 8 = 0) := by
  have hS : w.toNat % 256 = 0x40 ↔ opcodeField w = 0x40 := (opcodeField_eq_iff (c := 0x40)).symm
  rw [hS, ← opcodeField_toNat, ← exists_decodeB_iff (w := w), ← exists_decodeNA_iff, ← upperB_eq_zero_iff,
    ← upperS_eq_zero_iff, ← upperNA_eq_zero_iff]
  constructor
  · rintro ⟨i, hi⟩
    obtain ⟨hB, hup⟩ | ⟨hop, hup, -⟩ | ⟨hNA, hup⟩ := decode_ok hi
    · exact .inl ⟨⟨i, hB⟩, hup⟩
    · exact .inr (.inl ⟨hop, hup⟩)
    · exact .inr (.inr ⟨⟨i, hNA⟩, hup⟩)
  · rintro (⟨⟨i, hB⟩, hup⟩ | ⟨hop, hup⟩ | ⟨⟨i, hNA⟩, hup⟩)
    · exact ⟨i, decode_of_decodeB hB hup⟩
    · exact ⟨.tblInit (selField w), decode_eq_ok_iff.2 (eq_encodeS hop hup)⟩
    · exact ⟨i, decode_eq_ok_iff.2 ((encode_of_decodeNA hNA).symm ▸ eq_encodeNA rfl hup)⟩

theorem exists_decode_error_iff {w : Word} : (∃ e, decode w = .error e) ↔ ¬ ∃ i, decode w = .ok i := by
  cases decode w <;> simp

/-- The four kinds of illegal word: no opcode, or a reserved bit set in one of the three layouts. -/
theorem illegal_word_iff {w : Word} : (∃ e, decode w = .error e) ↔
    (w.toNat % 256 ∉ opcodesNA ∧ w.toNat % 256 ∉ opcodesB ∧ w.toNat % 256 ≠ 0x40) ∨
    (w.toNat % 256 ∈ opcodesNA ∧ w.toNat / 2 ^ 8 ≠ 0) ∨ (w.toNat % 256 ∈ opcodesB ∧ w.toNat / 2 ^ 16 ≠ 0) ∨
    (w.toNat % 256 = 0x40 ∧ w.toNat / 2 ^ 9 ≠ 0) := by
  rw [exists_decode_error_iff, exists_decode_ok_iff]
  by_cases hNA : w.toNat % 256 ∈ opcodesNA
  · obtain ⟨hB, hS⟩ := not_mem_of_mem_opcodesNA hNA
    simp [hNA, hB, hS]
  · by_cases hB : w.toNat % 256 ∈ opcodesB
    · simp [hNA, hB, ne_of_mem_opcodesB hB]
    · by_cases hS : w.toNat % 256 = 0x40
      · rw [hS] at hNA hB ⊢
        simp [hNA, hB]
      · simp [hNA, hB, hS]

/-! ### The 788 commands (R85) -/

/-- Every value of a byte. -/
def allBytes : List Byte := (List.finRange (2 ^ 8)).map BitVec.ofFin

/-- The commands with no byte: formats N, A and S. -/
def commandsWithoutByte : List Instr :=
  [.nop, .clrErr, .keyClr, .keyPushw, .fnvInit, .fnvFinal, .fnvKey, .murInit, .murBlock, .murFinal, .murKey,
    .tblInit .fnv, .tblInit .mur, .tblDiscard, .tblAdd, .tblContains, .tblRemove, .tblDist, .tblColl, .tblSize]

/-- Every command: those of format B with every byte, and the rest. -/
def allCommands : List Instr :=
  commandsWithoutByte ++ (allBytes.map Instr.keyPush ++ (allBytes.map Instr.fnvByte ++ allBytes.map Instr.murByte))

theorem mem_allBytes (b : Byte) : b ∈ allBytes :=
  List.mem_map.2 ⟨b.toFin, List.mem_finRange _, rfl⟩

theorem nodup_allBytes : allBytes.Nodup :=
  (List.nodup_finRange _).map fun _ _ => congrArg BitVec.toFin

theorem mem_allCommands (i : Instr) : i ∈ allCommands := by
  cases i with
  | keyPush b | fnvByte b | murByte b => simp [allCommands, mem_allBytes b]
  | tblInit sel => exact List.mem_append_left _ (by cases sel <;> decide)
  | nop | clrErr | keyClr | keyPushw | fnvInit | fnvFinal | fnvKey | murInit | murBlock | murFinal | murKey
  | tblDiscard | tblAdd | tblContains | tblRemove | tblDist | tblColl | tblSize =>
    exact List.mem_append_left _ (by decide)

theorem nodup_allCommands : allCommands.Nodup := by
  have hkey : (allBytes.map Instr.keyPush).Nodup := nodup_allBytes.map fun _ _ => Instr.keyPush.inj
  have hfnv : (allBytes.map Instr.fnvByte).Nodup := nodup_allBytes.map fun _ _ => Instr.fnvByte.inj
  have hmur : (allBytes.map Instr.murByte).Nodup := nodup_allBytes.map fun _ _ => Instr.murByte.inj
  refine List.Nodup.append (by decide) (hkey.append (hfnv.append hmur ?_) ?_) ?_
  all_goals simp [List.Disjoint, commandsWithoutByte]

theorem length_allCommands : allCommands.length = 788 := by
  simp [allCommands, commandsWithoutByte, allBytes]

theorem encode_injective : Function.Injective encode := fun i j h =>
  Except.ok.inj ((decode_encode i).symm.trans (h ▸ decode_encode j))

/-! ### An illegal word executes nothing (R222) -/

theorem execute_of_illegal {w : Word} {e : DecodeError} (h : decode w = .error e) (s : State) :
    execute w s = .next (raise .eill s) := by
  rw [execute, h]
  rfl

/-- Settles O3: the legal words are the encodings of the 788 commands. -/
theorem illegalWordsExecuteNothing : Obligations.IllegalWordsExecuteNothing := by
  refine ⟨fun _ => illegal_word_iff, ⟨allCommands.map encode, nodup_allCommands.map encode_injective, ?_, fun w => ?_⟩,
    fun w s e h => execute_of_illegal h s⟩
  · rw [List.length_map, length_allCommands]
  · simp only [List.mem_map, mem_allCommands, true_and, decode_eq_ok_iff, eq_comm (a := w)]

end Sys2Proof.Machine
end

section
/-! PROOFS. The errors (60_exceptions.md R210 to R214, R223): a command that answers either completed, or failed for the
cause of its code and left the state R212 gives. The statements about failures are read off from that. -/

namespace Sys2Proof.Machine

/-! ### Completing or failing (R210, R212) -/

/-- Which commands report a code, and its cause: the table of R210. -/
def ErrCause (s : State) (i : Instr) : ErrCode → Prop
  | .eill => False
  | .enotfound => i = .tblRemove ∧ ∃ k, currentKey s = some k ∧ k ∉ chainOf s.chains (bucketOf k s)
  | .ecfg => (∃ sel, i = .tblInit sel) ∧ (s.arg = 0 ∨ s.cfg.maxBuckets < s.arg.toNat)
  | .enotbl => needsTable i = true ∧ s.tvalid = false
  | .ebusy => (∃ sel, i = .tblInit sel) ∧ s.tvalid = true
  | .ekeyovf =>
    ((∃ b, i = .keyPush b) ∧ s.keylen.toNat = s.cfg.keyMax) ∨ (i = .keyPushw ∧ s.cfg.keyMax < s.keylen.toNat + 4)
  | .efull => i = .tblAdd ∧ s.size.toNat = s.cfg.maxEntries
  | .erange => i = .tblDist ∧ s.buckets.toNat ≤ s.arg.toNat
  | .eseq => i = .murBlock ∧ s.murLen.toNat % 4 ≠ 0
  | .elen =>
    ((∃ b, i = .murByte b) ∧ s.murLen.toNat + 1 > 2 ^ 32 - 1) ∨ (i = .murBlock ∧ s.murLen.toNat + 4 > 2 ^ 32 - 1)

/-- The state after a `TBL_REMOVE` that found no copy of `k`: the lookup's writes stand (R187, R212). -/
def afterNotFound (k : Key) (s : State) : State := raise .enotfound { lookedUp k s with result := 0 }

/-- The state a failing command leaves (R212): the flags alone are written, but for the lookup of `TBL_REMOVE`. -/
inductive Failed (s : State) (i : Instr) : State → Prop
  | flagsOnly (c : ErrCode) (hc : ErrCause s i c) (hne : c ≠ .enotfound) : Failed s i (raise c s)
  | notFound (k : Key) (hi : i = .tblRemove) (hv : s.tvalid = true) (hk : currentKey s = some k)
      (hmem : k ∉ chainOf s.chains (bucketOf k s)) : Failed s i (afterNotFound k s)

section
variable {i : Instr} {s t : State}

theorem failed_enotbl (hi : needsTable i = true) (hv : s.tvalid = false) : Failed s i (raise .enotbl s) :=
  .flagsOnly .enotbl ⟨hi, hv⟩ nofun

/-- A command that answers completed or failed. -/
theorem exec_completed_or_failed (h : exec i s = .next t) : t.err = 0 ∨ Failed s i t := by
  cases i with
  | nop | clrErr | keyClr | fnvInit | fnvByte | fnvFinal | murInit | murFinal =>
    cases h
    exact .inl rfl
  | keyPush b =>
    obtain ⟨hfull, rfl⟩ | ⟨-, rfl⟩ := execKeyPush_next h
    · exact .inr (.flagsOnly .ekeyovf (.inl ⟨⟨b, rfl⟩, hfull⟩) nofun)
    · exact .inl rfl
  | keyPushw =>
    obtain ⟨hfull, rfl⟩ | ⟨-, rfl⟩ := execKeyPushw_next h
    · exact .inr (.flagsOnly .ekeyovf (.inr ⟨rfl, hfull⟩) nofun)
    · exact .inl rfl
  | fnvKey =>
    obtain ⟨k, -, rfl⟩ := execFnvKey_next h
    exact .inl rfl
  | murByte b =>
    obtain ⟨hlen, rfl⟩ | ⟨-, -, rfl⟩ | ⟨-, -, rfl⟩ := execMurByte_next h
    · exact .inr (.flagsOnly .elen (.inl ⟨⟨b, rfl⟩, by rw [hlen]; decide⟩) nofun)
    · exact .inl rfl
    · exact .inl rfl
  | murBlock =>
    obtain ⟨hseq, rfl⟩ | ⟨-, hlen, rfl⟩ | ⟨-, -, rfl⟩ := execMurBlock_next h
    · exact .inr (.flagsOnly .eseq ⟨rfl, hseq⟩ nofun)
    · exact .inr (.flagsOnly .elen (.inr ⟨rfl, by omega⟩) nofun)
    · exact .inl rfl
  | murKey =>
    obtain ⟨k, -, rfl⟩ := execMurKey_next h
    exact .inl rfl
  | tblInit sel =>
    obtain ⟨hv, rfl⟩ | ⟨-, harg, rfl⟩ | ⟨-, -, -, rfl⟩ := execTblInit_next h
    · exact .inr (.flagsOnly .ebusy ⟨⟨sel, rfl⟩, hv⟩ nofun)
    · exact .inr (.flagsOnly .ecfg ⟨⟨sel, rfl⟩, harg⟩ nofun)
    · exact .inl rfl
  | tblDiscard =>
    obtain ⟨hv, rfl⟩ | ⟨-, rfl⟩ := execTblDiscard_next h
    · exact .inr (failed_enotbl rfl hv)
    · exact .inl rfl
  | tblAdd =>
    obtain ⟨hv, rfl⟩ | ⟨-, hfull, rfl⟩ | ⟨-, -, k, -, rfl⟩ := execTblAdd_next h
    · exact .inr (failed_enotbl rfl hv)
    · exact .inr (.flagsOnly .efull ⟨rfl, hfull⟩ nofun)
    · exact .inl rfl
  | tblContains =>
    obtain ⟨hv, rfl⟩ | ⟨-, k, -, rfl⟩ := execTblContains_next h
    · exact .inr (failed_enotbl rfl hv)
    · exact .inl rfl
  | tblRemove =>
    obtain ⟨hv, rfl⟩ | ⟨hv, k, hk, ⟨hmem, rfl⟩ | ⟨j, -, rfl⟩⟩ := execTblRemove_next h
    · exact .inr (failed_enotbl rfl hv)
    · exact .inr (.notFound k rfl hv hk hmem)
    · exact .inl rfl
  | tblDist =>
    obtain ⟨hv, rfl⟩ | ⟨-, hrange, rfl⟩ | ⟨-, -, rfl⟩ := execTblDist_next h
    · exact .inr (failed_enotbl rfl hv)
    · exact .inr (.flagsOnly .erange ⟨rfl, hrange⟩ nofun)
    · exact .inl rfl
  | tblColl =>
    obtain ⟨hv, rfl⟩ | ⟨-, rfl⟩ := execTblColl_next h
    · exact .inr (failed_enotbl rfl hv)
    · exact .inl rfl
  | tblSize =>
    obtain ⟨hv, rfl⟩ | ⟨-, rfl⟩ := execTblSize_next h
    · exact .inr (failed_enotbl rfl hv)
    · exact .inl rfl

theorem failed_of_err_ne_zero (h : exec i s = .next t) (herr : t.err ≠ 0) : Failed s i t :=
  (exec_completed_or_failed h).resolve_left herr

/-! ### Codes and causes (R210) -/

theorem Failed.exists_cause (h : Failed s i t) : ∃ c, ErrCause s i c ∧ t.err = errCode c := by
  cases h with
  | flagsOnly c hc hne => exact ⟨c, hc, rfl⟩
  | notFound k hi hv hk hmem => exact ⟨.enotfound, ⟨hi, k, hk, hmem⟩, rfl⟩

/-- A command that reports a code had the code's cause, because distinct errors have distinct codes. -/
theorem errCause_of_err_eq (h : exec i s = .next t) {c : ErrCode} (herr : t.err = errCode c) : ErrCause s i c := by
  have hne : t.err ≠ 0 := herr ▸ raise_err_ne_zero c s
  obtain ⟨d, hd, hcode⟩ := (failed_of_err_ne_zero h hne).exists_cause
  exact errCode_injective (herr.symm.trans hcode) ▸ hd

theorem err_le_ten (h : exec i s = .next t) : t.err.toNat ≤ 10 := by
  obtain hok | hfailed := exec_completed_or_failed h
  · rw [hok]
    decide
  · obtain ⟨c, -, hcode⟩ := hfailed.exists_cause
    rw [hcode]
    exact (errCode_range c).2

theorem neverFails_eq_false_of_needsTable (hi : needsTable i = true) : neverFails i = false :=
  match i, hi with
  | .tblDiscard, _ | .tblAdd, _ | .tblContains, _ | .tblRemove, _ | .tblDist, _ | .tblColl, _ | .tblSize, _ => rfl

/-- No command of R210's list of those that never fail is among those that report a code. -/
theorem neverFails_eq_false {c : ErrCode} (h : ErrCause s i c) : neverFails i = false := by
  cases c with
  | eill => exact h.elim
  | enotfound | efull | erange | eseq =>
    obtain ⟨rfl, -⟩ := h
    rfl
  | ecfg | ebusy =>
    obtain ⟨⟨sel, rfl⟩, -⟩ := h
    rfl
  | enotbl =>
    obtain ⟨hi, -⟩ := h
    exact neverFails_eq_false_of_needsTable hi
  | ekeyovf | elen =>
    obtain ⟨⟨b, rfl⟩, -⟩ | ⟨rfl, -⟩ := h
    · rfl
    · rfl

theorem err_eq_zero_of_neverFails (hi : neverFails i = true) (h : exec i s = .next t) : t.err = 0 := by
  by_contra hne
  obtain ⟨c, hc, -⟩ := (failed_of_err_ne_zero h hne).exists_cause
  rw [neverFails_eq_false hc] at hi
  cases hi

end

/-- Settles O56. -/
theorem errorCodesHaveTheirCauses : Obligations.ErrorCodesHaveTheirCauses := by
  intro i s t h
  have cause (c : ErrCode) (herr : t.err = errCode c) : ErrCause s i c := errCause_of_err_eq h herr
  exact ⟨err_le_ten h, cause .eill, (err_eq_zero_of_neverFails · h), cause .enotfound, cause .ecfg, cause .enotbl,
    cause .ebusy, cause .ekeyovf, cause .efull, cause .erange, cause .eseq, cause .elen⟩

/-! ### What a failure changes (R212, R213) -/

/-- Settles O57. -/
theorem failedCommandsChangeNoTable : Obligations.FailedCommandsChangeNoTable := by
  intro i s t h herr
  cases failed_of_err_ne_zero h herr with
  | flagsOnly c hc hne =>
    have hcode : errCode c ≠ errCode .enotfound := fun h2 => hne (errCode_injective h2)
    exact ⟨⟨rfl, rfl⟩, ⟨rfl, rfl, rfl, rfl, rfl⟩, rfl, fun _ => rfl, fun h2 => absurd h2 hcode⟩
  | notFound k hi hv hk hmem =>
    exact ⟨⟨lookedUp_keylen k s, lookedUp_keybuf k s⟩, ⟨lookedUp_tvalid k s, lookedUp_hsel k s, lookedUp_buckets k s,
      lookedUp_size k s, lookedUp_chains k s⟩, rfl, fun h2 => absurd rfl h2, fun _ => ⟨hi, k, hk, rfl⟩⟩

/-! ### Repeating a failure (R223) -/

section
variable {s : State} {k : Key}

/-- The lookup of a key reads nothing that the same lookup wrote. -/
theorem afterNotFound_afterNotFound : afterNotFound k (afterNotFound k s) = afterNotFound k s := by
  cases hsel : s.hsel <;> simp [afterNotFound, raise, lookedUp, hsel]

theorem exec_tblRemove_afterNotFound (hv : s.tvalid = true) (hk : currentKey s = some k)
    (hmem : k ∉ chainOf s.chains (bucketOf k s)) :
    exec .tblRemove (afterNotFound k s) = .next (afterNotFound k s) := by
  have hkeylen : (afterNotFound k s).keylen = s.keylen := lookedUp_keylen k s
  have hkeybuf : (afterNotFound k s).keybuf = s.keybuf := lookedUp_keybuf k s
  have hchains : (afterNotFound k s).chains = s.chains := lookedUp_chains k s
  have hbucket : bucketOf k (afterNotFound k s) = bucketOf k s := bucketOf_lookedUp k k s
  have hagain := exec_tblRemove_absent (s := afterNotFound k s) (k := k) ((lookedUp_tvalid k s).trans hv)
    (by rwa [currentKey, hkeylen, hkeybuf]) (by rwa [hchains, hbucket])
  exact hagain.trans (congrArg _ afterNotFound_afterNotFound)

end

/-- Settles O59: no command reads the flags, and a lookup repeated writes what it wrote. -/
theorem failuresRepeat : Obligations.FailuresRepeat := by
  intro i s t h herr
  cases failed_of_err_ne_zero h herr with
  | flagsOnly c hc hne =>
    have hagain := noCommandReadsTheFlags i s (raise c s) (errCode c) true h
    rwa [if_pos herr] at hagain
  | notFound k hi hv hk hmem =>
    subst hi
    exact exec_tblRemove_afterNotFound hv hk hmem

/-! ### The order of the checks (R214) -/

/-- Settles O58. -/
theorem firstFailingCheckIsReported : Obligations.FirstFailingCheckIsReported :=
  ⟨fun _ _ s he => ⟨_, execute_of_illegal he s, rfl⟩,
    fun _ sel hv _ => ⟨_, exec_tblInit_live sel hv, rfl⟩,
    fun _ hv _ => ⟨_, exec_needsTable_without_table rfl hv, rfl⟩,
    fun _ _ hv _ _ => ⟨_, exec_needsTable_without_table rfl hv, rfl⟩,
    fun _ hv _ => ⟨_, exec_needsTable_without_table rfl hv, rfl⟩,
    fun _ hseq _ => ⟨_, exec_murBlock_off_boundary hseq, rfl⟩⟩

end Sys2Proof.Machine
end

section
/-! PROOFS. Reset (70_reset_and_hazards.md R240, R241): what the reset event leaves, and what else clears `ERRS`. -/

namespace Sys2Proof.Machine

/-! ### The state after reset (R240) -/

theorem perform_reset (s : State) : perform .reset s = .next (resetBlock s) := rfl

/-- R240, from every state: the reset event reads nothing but the parameters, to which no row of the table refers. -/
theorem resetValues_resetBlock (s : State) : ResetValues (resetBlock s) :=
  ⟨rfl, rfl, rfl, rfl, rfl, rfl, rfl, rfl, rfl, rfl, rfl, rfl, rfl, rfl, rfl, rfl, chainOf_nil⟩

/-- Resetting a block right after reset changes nothing. -/
theorem resetBlock_reset : resetBlock State.reset = State.reset := rfl

/-- The unloaded buffer after reset is the empty key (R242). -/
theorem currentKey_resetBlock (s : State) : currentKey (resetBlock s) = some [] := rfl

/-- `ID` is a constant, not state (R43). -/
theorem hostRead_id (s : State) : hostRead 0x34 s = 0x4E434846 := rfl

/-- Settles O12. -/
theorem resetGivesTheResetValues : Obligations.ResetGivesTheResetValues :=
  ⟨fun s => ⟨resetBlock s, perform_reset s, resetValues_resetBlock s, rfl, rfl, rfl, currentKey_resetBlock s,
      hostRead_id _⟩,
    resetBlock_reset ▸ resetValues_resetBlock State.reset⟩

/-! ### What clears ERRS (R241, R102) -/

/-- A CMD write that clears `ERRS` is the one word of `CLR_ERR`: an illegal word sets `ERRS`. -/
theorem eq_clrErr_word_of_errs_cleared {w : Word} {s t : State} (h : execute w s = .next t) (hs : s.errs = true)
    (ht : t.errs = false) : w = 0x00000001 := by
  obtain ⟨i, hdec, hexec⟩ | ⟨e, -, rfl⟩ := execute_next h
  · rw [decode_eq_ok_iff.1 hdec, eq_clrErr_of_errs_cleared hexec hs ht]
    rfl
  · cases (raise_errs .eill s).symm.trans ht

/-- Settles O13, over the transactions that answer: an ARG write, an ignored write and a read keep `ERRS`. -/
theorem onlyResetAndClrErrClearErrs : Obligations.OnlyResetAndClrErrClearErrs := by
  intro x s t h hs ht
  obtain ⟨w, rfl, hw⟩ | ⟨v, rfl, rfl⟩ | ⟨off, v, rfl, -, -, rfl⟩ | ⟨off, rfl, rfl⟩ | ⟨rfl, -⟩ := perform_next h
  · exact .inr (congrArg (Txn.write 0x00) (eq_clrErr_word_of_errs_cleared hw hs ht))
  · cases hs.symm.trans ht
  · cases hs.symm.trans ht
  · cases hs.symm.trans ht
  · exact .inl rfl

end Sys2Proof.Machine
end
